-- ==== Sys2Proof/Word.lean ====
section
/-! DEFINITION. The machine's byte (00_scope.md R10: a register value is an unsigned bit vector of the stated
width, written out as such everywhere). -/

namespace Sys2Proof

/-- One byte of a message (R11). -/
abbrev Byte := BitVec 8

end Sys2Proof
end

