-- ==== Sys2Proof/Syntax.lean ====
section
/-! DEFINITION. The eleven commands of 30_encoding.md R75 and R76, one constructor for each row of
spec/opcode_table.json. The data operand of a command is not in its word: it is DIN, latched (R22, R31). -/

namespace Sys2Proof

/-- `SEL[0]` of ENC_START (R73): where the IV comes from. -/
inductive IvSrc where
  /-- `SEL = 0`: the random source. -/
  | rng
  /-- `SEL = 1`: DIN. -/
  | din
  deriving DecidableEq, Repr

/-- `SEL` of PERM (R73): which table. -/
inductive TableSel where
  /-- `SEL = 0`: IP_TABLE. -/
  | ip
  /-- `SEL = 1`: IPINV_TABLE. -/
  | ipinv
  deriving DecidableEq, Repr

/-- `SEL` of FWD and REV (R73): which key. -/
inductive KeySel where
  | k1
  | k2
  | k3
  deriving DecidableEq, Repr

/-- A command. A length operand is LEN, a count of bytes (R72); `Instr.wf` says which counts are legal. -/
inductive Instr where
  /-- NOP (43_control.md R180). -/
  | nop
  /-- ENC_START (42_chaining.md R149). -/
  | encStart (src : IvSrc)
  /-- ENC_BLOCK with LEN plaintext bytes in DIN (R150). -/
  | encBlock (len : Nat)
  /-- DEC_START with LEN stream bytes at hand for the IV (R151). -/
  | decStart (len : Nat)
  /-- DEC_BLOCK with LEN ciphertext bytes in DIN (R152). -/
  | decBlock (len : Nat)
  /-- ABORT (43_control.md R181). -/
  | abort
  /-- PERM (40_permutation.md R104). -/
  | perm (table : TableSel)
  /-- FWD (41_stage_cascade.md R127). -/
  | fwd (key : KeySel)
  /-- REV (R128). -/
  | rev (key : KeySel)
  /-- CENC (R129). -/
  | cenc
  /-- CDEC (R130). -/
  | cdec
  deriving DecidableEq, Repr

end Sys2Proof
end

