-- ==== Sys2Proof/WellFormed.lean ====
section
/-! DEFINITION. Which commands have an encoding: the legal ranges of LEN (30_encoding.md R72, R76). Every other
operand is a closed set of names, so its type is its range. -/

namespace Sys2Proof

/-- ENC_BLOCK and DEC_BLOCK: 1 to 8 bytes (R72). -/
def blockLenOk (len : Nat) : Bool := decide (1 ≤ len) && decide (len ≤ 8)

/-- DEC_START: 0 to 8 bytes (R72). -/
def ivLenOk (len : Nat) : Bool := decide (len ≤ 8)

/-- The command has a word in R76's table. -/
def Instr.wf : Instr → Bool
  | .nop => true
  | .encStart _ => true
  | .encBlock len => blockLenOk len
  | .decStart len => ivLenOk len
  | .decBlock len => blockLenOk len
  | .abort => true
  | .perm _ => true
  | .fwd _ => true
  | .rev _ => true
  | .cenc => true
  | .cdec => true

end Sys2Proof
end

