-- ==== Sys2Proof/Decode.lean ====
section
/-! DEFINITION. The decoder, total on 64-bit words (30_encoding.md R77), and the encoder (R76, R80); the opcode
table's masks and matches (R76). A word is illegal for a named reason (R78); the engine treats all reasons alike. -/

namespace Sys2Proof

/-- Why a word is illegal: the three kinds R78 lists. -/
inductive Illegal where
  /-- An RSV bit is set (R74). -/
  | reservedBits
  /-- OP is 11 to 15 (R75). -/
  | opcode
  /-- LEN or SEL is outside the legal range of its OP (R76). -/
  | fieldRange
  deriving DecidableEq, Repr

/-- What a word decodes to: R77's `Cmd | Illegal`. -/
inductive Decoded where
  | instr (i : Instr)
  | illegal (why : Illegal)
  deriving DecidableEq, Repr

/-- OP = `w[3:0]` (R71). -/
def opField (w : BitVec 64) : BitVec 4 := w.extractLsb' 0 4

/-- LEN = `w[7:4]` (R72). -/
def lenField (w : BitVec 64) : BitVec 4 := w.extractLsb' 4 4

/-- SEL = `w[9:8]` (R73). -/
def selField (w : BitVec 64) : BitVec 2 := w.extractLsb' 8 2

/-- RSV = `w[63:10]` (R74). -/
def rsvField (w : BitVec 64) : BitVec 54 := w.extractLsb' 10 54

/-- A command without operand fields: LEN and SEL must be 0 (R77, OP 0, 5, 9, 10). -/
def decodePlain (i : Instr) (len : BitVec 4) (sel : BitVec 2) : Decoded :=
  if len = 0#4 ∧ sel = 0#2 then .instr i else .illegal .fieldRange

/-- LEN must be 0 and `SEL[0]` chooses one of two (R77, OP 1 and 6). -/
def decodeChoice (zero one : Instr) (len : BitVec 4) (sel : BitVec 2) : Decoded :=
  if len = 0#4 ∧ sel = 0#2 then .instr zero
  else if len = 0#4 ∧ sel = 1#2 then .instr one
  else .illegal .fieldRange

/-- LEN must be 0 and SEL is a key number, 1 to 3 (R77, OP 7 and 8). -/
def decodeKey (cmd : KeySel → Instr) (len : BitVec 4) (sel : BitVec 2) : Decoded :=
  if len = 0#4 ∧ sel = 1#2 then .instr (cmd .k1)
  else if len = 0#4 ∧ sel = 2#2 then .instr (cmd .k2)
  else if len = 0#4 ∧ sel = 3#2 then .instr (cmd .k3)
  else .illegal .fieldRange

/-- SEL must be 0 and LEN is a byte count in the range `ok` (R77, OP 2, 3, 4). -/
def decodeCount (cmd : Nat → Instr) (ok : Nat → Bool) (len : BitVec 4) (sel : BitVec 2) : Decoded :=
  if ok len.toNat = true ∧ sel = 0#2 then .instr (cmd len.toNat) else .illegal .fieldRange

/-- The case distinction of R77 on OP. -/
def decodeOp (op len : BitVec 4) (sel : BitVec 2) : Decoded :=
  match op.toNat with
  | 0 => decodePlain .nop len sel
  | 1 => decodeChoice (.encStart .rng) (.encStart .din) len sel
  | 2 => decodeCount .encBlock blockLenOk len sel
  | 3 => decodeCount .decStart ivLenOk len sel
  | 4 => decodeCount .decBlock blockLenOk len sel
  | 5 => decodePlain .abort len sel
  | 6 => decodeChoice (.perm .ip) (.perm .ipinv) len sel
  | 7 => decodeKey .fwd len sel
  | 8 => decodeKey .rev len sel
  | 9 => decodePlain .cenc len sel
  | 10 => decodePlain .cdec len sel
  | _ => .illegal .opcode

/-- `Decode` of R77: any 64-bit word to a command or Illegal. It reads nothing but the word. -/
def decode (w : BitVec 64) : Decoded :=
  if rsvField w ≠ 0#54 then .illegal .reservedBits
  else decodeOp (opField w) (lenField w) (selField w)

/-- `zext_64(SEL ‖ LEN ‖ OP)` (R76). -/
def commandWord (sel : BitVec 2) (len op : BitVec 4) : BitVec 64 := 0#54 ++ sel ++ len ++ op

/-- SEL of an IV source (R73). -/
def IvSrc.sel : IvSrc → BitVec 2
  | .rng => 0#2
  | .din => 1#2

/-- SEL of a table (R73). -/
def TableSel.sel : TableSel → BitVec 2
  | .ip => 0#2
  | .ipinv => 1#2

/-- SEL of a key (R73). -/
def KeySel.sel : KeySel → BitVec 2
  | .k1 => 1#2
  | .k2 => 2#2
  | .k3 => 3#2

/-- The word of a well-formed command (R76, R80). -/
def encode : Instr → BitVec 64
  | .nop => commandWord 0#2 0#4 0#4
  | .encStart src => commandWord src.sel 0#4 1#4
  | .encBlock len => commandWord 0#2 (BitVec.ofNat 4 len) 2#4
  | .decStart len => commandWord 0#2 (BitVec.ofNat 4 len) 3#4
  | .decBlock len => commandWord 0#2 (BitVec.ofNat 4 len) 4#4
  | .abort => commandWord 0#2 0#4 5#4
  | .perm table => commandWord table.sel 0#4 6#4
  | .fwd key => commandWord key.sel 0#4 7#4
  | .rev key => commandWord key.sel 0#4 8#4
  | .cenc => commandWord 0#2 0#4 9#4
  | .cdec => commandWord 0#2 0#4 10#4

/-- One row of R76's table. -/
structure OpcodeRow where
  mnemonic : String
  mask : BitVec 64
  pattern : BitVec 64
  /-- LEN legal, from and to. -/
  lenFrom : Nat
  lenTo : Nat
  /-- SEL legal, from and to. -/
  selFrom : Nat
  selTo : Nat
  deriving DecidableEq, Repr

/-- R76: a word matches a row when `(w & mask) = match` and its free fields are in the legal range. -/
def OpcodeRow.accepts (r : OpcodeRow) (w : BitVec 64) : Bool :=
  (w &&& r.mask == r.pattern) &&
    decide (r.lenFrom ≤ (lenField w).toNat) && decide ((lenField w).toNat ≤ r.lenTo) &&
    decide (r.selFrom ≤ (selField w).toNat) && decide ((selField w).toNat ≤ r.selTo)

/-- The row of R76's table that a command belongs to. -/
def Instr.row : Instr → OpcodeRow
  | .nop => ⟨"NOP", 0xFFFFFFFFFFFFFFFF#64, 0x0#64, 0, 0, 0, 0⟩
  | .encStart _ => ⟨"ENC_START", 0xFFFFFFFFFFFFFEFF#64, 0x1#64, 0, 0, 0, 1⟩
  | .encBlock _ => ⟨"ENC_BLOCK", 0xFFFFFFFFFFFFFF0F#64, 0x2#64, 1, 8, 0, 0⟩
  | .decStart _ => ⟨"DEC_START", 0xFFFFFFFFFFFFFF0F#64, 0x3#64, 0, 8, 0, 0⟩
  | .decBlock _ => ⟨"DEC_BLOCK", 0xFFFFFFFFFFFFFF0F#64, 0x4#64, 1, 8, 0, 0⟩
  | .abort => ⟨"ABORT", 0xFFFFFFFFFFFFFFFF#64, 0x5#64, 0, 0, 0, 0⟩
  | .perm _ => ⟨"PERM", 0xFFFFFFFFFFFFFEFF#64, 0x6#64, 0, 0, 0, 1⟩
  | .fwd _ => ⟨"FWD", 0xFFFFFFFFFFFFFCFF#64, 0x7#64, 0, 0, 1, 3⟩
  | .rev _ => ⟨"REV", 0xFFFFFFFFFFFFFCFF#64, 0x8#64, 0, 0, 1, 3⟩
  | .cenc => ⟨"CENC", 0xFFFFFFFFFFFFFFFF#64, 0x9#64, 0, 0, 0, 0⟩
  | .cdec => ⟨"CDEC", 0xFFFFFFFFFFFFFFFF#64, 0xA#64, 0, 0, 0, 0⟩

/-- R76's table. -/
def opcodeTable : List OpcodeRow :=
  [Instr.nop.row, (Instr.encStart .rng).row, (Instr.encBlock 1).row, (Instr.decStart 0).row, (Instr.decBlock 1).row,
    Instr.abort.row, (Instr.perm .ip).row, (Instr.fwd .k1).row, (Instr.rev .k1).row, Instr.cenc.row, Instr.cdec.row]

/-- The word the table's numbering gives: a command is one 64-bit word (R70), so its bits are the table's. -/
def tableWord (nbits w : Nat) : BitVec 64 := BitVec.ofNat 64 (w % 2 ^ nbits)

/-- The host's view of the decoder: the command in the table word `w`, none where the word is illegal. -/
def decodeTableWord (nbits w : Nat) : Option Instr :=
  match decode (tableWord nbits w) with
  | .instr i => some i
  | .illegal _ => none

end Sys2Proof
end

