-- ==== Sys2Proof/Config.lean ====
section
/-! DEFINITION. What is fixed for one engine and no step changes (00_scope.md R9, R13), and the free values.

The keys and the answers of the random source are opaque constants: nothing can be proved of them but what their
types say. The tables, the random source's readiness and the platform's base address are `Params`, plain data that
State carries beside the engine's registers, because the host's interface gives `step` no argument but the state: a
statement about every state is then a statement about every value of these parameters (R9), and a test can still
compute PERM under the default tables (R103). -/

namespace Sys2Proof

/-- KEY1, KEY2 and KEY3 as the images of 1, 2 and 3 under an unknown permutation of the 64-bit words: three
pairwise distinct words of which nothing else is known (R9, R32; N4). -/
opaque Config.keyPerm : Equiv.Perm (BitVec 64)

/-- The key that SEL names (R32, R73). -/
def Config.key : KeySel → BitVec 64
  | .k1 => Config.keyPerm 1#64
  | .k2 => Config.keyPerm 2#64
  | .k3 => Config.keyPerm 3#64

/-- The answer of the random source to its n-th `Draw64()`: a free value for each draw, with no law across draws
(R148; 93_implementation_defined.md I1). Two draws may be equal (90_conflicts.md C3). -/
opaque Config.draw64 : Nat → BitVec 64

/-- The logical bit a table entry names when the input has no such bit. The source's Permute is defined only where
every entry has its bit (R100; 90_conflicts.md C5), so this is a free value; the engine never meets it (R103). -/
opaque Config.absentBit : Nat → Bool

/-- The two permutation tables, entries 1-based, listed from output position 0 (R33, R100). -/
structure Tables where
  ip : List Nat
  ipinv : List Nat
  deriving DecidableEq, Repr

/-- R103 (a): 64 entries, every entry in 1..64. -/
def tableRange (t : List Nat) : Bool := t.length == 64 && t.all fun e => decide (1 ≤ e) && decide (e ≤ 64)

/-- R103 (b): every position of 1..64 occurs, which for 64 entries in 1..64 makes the table a permutation. -/
def tableOnto (t : List Nat) : Bool := (List.range 64).all fun p => t.contains (p + 1)

/-- R103 (c), one direction: `t[u[i] - 1] = i + 1` for every i in 0..63. -/
def tableUndoes (t u : List Nat) : Bool := (List.range 64).all fun i => t.getD (u.getD i 0 - 1) 0 == i + 1

/-- The constraints (a) to (c) of R103. -/
def Tables.ok (t : Tables) : Bool :=
  tableRange t.ip && tableRange t.ipinv && tableOnto t.ip && tableOnto t.ipinv &&
    tableUndoes t.ip t.ipinv && tableUndoes t.ipinv t.ip

/-- The parameters of the step relation that State carries (R9, R13). -/
structure Params where
  /-- IP_TABLE and IPINV_TABLE (R33, R103). -/
  tables : Tables
  /-- RNG_READY: the random source answers `Draw64()` (70_reset_and_hazards.md R233; D26). -/
  rngReady : Bool
  /-- The upper bits of ENGINE_BASE, which is 256-byte aligned (20_memory.md R55). -/
  enginePage : BitVec 56
  deriving DecidableEq, Repr

/-- ENGINE_BASE (R55). -/
def Params.engineBase (p : Params) : BitVec 64 := p.enginePage ++ 0#8

end Sys2Proof
end

