-- ==== Sys2Proof/Machine/Tables.lean ====
section
/-! DEFINITION. The default permutation tables of 40_permutation.md R103 and the parameters an engine has unless a
state says otherwise. The contents are general knowledge, not the source's (93_implementation_defined.md G1, G2):
statements about PERM take the tables from the state and assume only R103 (a) to (c). -/

namespace Sys2Proof.Machine

/-- IP_TABLE (default), R103. PRESUMED (general knowledge, G1): notes/assumptions/1.md, unsafe. -/
def defaultIp : List Nat :=
  [58, 50, 42, 34, 26, 18, 10, 2, 60, 52, 44, 36, 28, 20, 12, 4] ++
  [62, 54, 46, 38, 30, 22, 14, 6, 64, 56, 48, 40, 32, 24, 16, 8] ++
  [57, 49, 41, 33, 25, 17, 9, 1, 59, 51, 43, 35, 27, 19, 11, 3] ++
  [61, 53, 45, 37, 29, 21, 13, 5, 63, 55, 47, 39, 31, 23, 15, 7]

/-- IPINV_TABLE (default), R103. PRESUMED (general knowledge, G2): notes/assumptions/1.md, unsafe. -/
def defaultIpinv : List Nat :=
  [40, 8, 48, 16, 56, 24, 64, 32, 39, 7, 47, 15, 55, 23, 63, 31] ++
  [38, 6, 46, 14, 54, 22, 62, 30, 37, 5, 45, 13, 53, 21, 61, 29] ++
  [36, 4, 44, 12, 52, 20, 60, 28, 35, 3, 43, 11, 51, 19, 59, 27] ++
  [34, 2, 42, 10, 50, 18, 58, 26, 33, 1, 41, 9, 49, 17, 57, 25]

/-- The default tables (R9, R103). -/
def defaultTables : Tables := { ip := defaultIp, ipinv := defaultIpinv }

/-- The parameters State.reset carries: the default tables; a random source that answers, the premise of R235's
fairness (DESIGN CHOICE: notes/assumptions/5.md, unsafe); the port at address 0 (DESIGN CHOICE:
notes/assumptions/6.md, unsafe). -/
def defaultParams : Params := { tables := defaultTables, rngReady := true, enginePage := 0#56 }

end Sys2Proof.Machine
end

