-- ==== Sys2Proof/Machine/State.lean ====
section
/-! DEFINITION. The engine's registers (10_state.md R20), the agents' pending moves, and the reasons a step stops. -/

namespace Sys2Proof.Machine

/-- MODE, the session state: these four values and no others (R28). -/
inductive Mode where
  /-- No session open. -/
  | idle
  /-- An encrypt session is open and accepts further blocks. -/
  | enc
  /-- A decrypt session is open and accepts further blocks. -/
  | dec
  /-- An encrypt session has taken its final, partial block. -/
  | encClosed
  deriving DecidableEq, Repr

/-- The engine's complete state, field for field the record of R20. -/
structure Engine where
  /-- DIN, the data input register (R22). -/
  din : BitVec 64
  /-- DOUT, the data output register (R23). -/
  dout : BitVec 64
  /-- FB, the feedback register, previousBlock (R24). -/
  fb : BitVec 64
  /-- MODE (R28). -/
  mode : Mode
  /-- ERR, the first error since the last clear (R29). -/
  err : BitVec 4
  /-- BUSY, a command is accepted and not completed (R27). -/
  busy : Bool
  /-- STGCNT, the single-stage invocation counter (R30). -/
  stgcnt : BitVec 32
  /-- LCMD, the latched command word (R31). -/
  lcmd : BitVec 64
  /-- LDIN, DIN as it was at acceptance (R31). -/
  ldin : BitVec 64
  /-- OVR, a CMD write was dropped while BUSY (R31). -/
  ovr : Bool
  deriving DecidableEq, Repr

/-- The table of R37. -/
def Engine.reset : Engine :=
  { din := 0#64, dout := 0#64, fb := 0#64, mode := .idle, err := 0#4, busy := false, stgcnt := 0#32,
    lcmd := 0#64, ldin := 0#64, ovr := false }

/-- A move of one of the agents (00_scope.md R13). The engine's place among the host's moves is what LAT leaves open
(70_reset_and_hazards.md R235); DESIGN CHOICE: notes/assumptions/3.md, safe. -/
inductive Turn where
  /-- The engine completes the command it has accepted; nothing if it has accepted none. -/
  | engine
  /-- The host's `PortRead(idx)` (20_memory.md R53). -/
  | read (idx : BitVec 5)
  /-- The host's `PortWrite(idx, v)` (R53). -/
  | write (idx : BitVec 5) (v : BitVec 64)
  /-- A host bus reads `bytes` bytes at a byte address (R53, R55, R56). -/
  | busRead (addr : BitVec 64) (bytes : Nat)
  /-- A host bus writes `bytes` bytes at a byte address. -/
  | busWrite (addr : BitVec 64) (bytes : Nat) (v : BitVec 64)
  /-- The host's `poll` (30_encoding.md R81): it reads STATUS until BUSY reads 0. The engine's next move comes after
  `lat + 1` reads that see BUSY = 1. -/
  | poll (lat : Nat)
  /-- Reset is asserted (70_reset_and_hazards.md R230). -/
  | assertReset
  /-- Reset is released. -/
  | releaseReset
  deriving DecidableEq, Repr

/-- What one read showed the host (R243). -/
structure ReadValue where
  idx : BitVec 5
  value : BitVec 64
  deriving DecidableEq, Repr

/-- The engine's registers, and beside them what is not the engine's: the parameters (R13), the reset input, the
moves to come, what the host has read, and how many draws were answered. -/
structure State extends Engine where
  /-- The parameters of the step relation; no step changes them (R13, R230). -/
  params : Params
  /-- The reset input is asserted (R230 to R232). -/
  resetLine : Bool
  /-- The moves to come, the next one first (20_memory.md R59). -/
  turns : List Turn
  /-- The values the host's reads returned, oldest first (R243). -/
  seen : List ReadValue
  /-- How many `Draw64()` the random source has answered (42_chaining.md R148). -/
  draws : Nat
  deriving DecidableEq, Repr

/-- The machine right after reset: R37's registers, the default parameters, reset released, no move pending. -/
def State.reset : State :=
  { toEngine := Engine.reset, params := defaultParams, resetLine := false, turns := [], seen := [], draws := 0 }

/-- Why an execution stops. The engine has no traps (60_exceptions.md R200), so the only reason is an execution
that never ends. -/
inductive Fault where
  /-- `enc.start rng` asked a random source that never answers (93_implementation_defined.md I12, "stuck"). Raised by
  `execEncStart` alone; a step turns it into waiting, with BUSY still 1. Safe. -/
  | drawUnanswered
  deriving DecidableEq, Repr

/-- Why the model gives no next state. -/
inductive Refusal where
  /-- No meaning yet. Raised by `exec`'s arms, by none now. Safe. -/
  | notModelled (mnemonic : String)
  /-- A port transaction while reset is asserted (R232; I7: "refuse"). Raised by `takeTurn`. Safe. -/
  | transactionDuringReset
  /-- A bus access that is not one whole aligned register: narrower than 64 bits or misaligned (20_memory.md R53, R56; I5: "refuse"). Raised by `busIndex`. Safe. -/
  | notWholeRegister
  /-- A bus access outside the 256 bytes at ENGINE_BASE: another device's (R55). Raised by `busIndex`. Safe. -/
  | outsidePort
  deriving DecidableEq, Repr

/-- An outcome of this machine. -/
abbrev Result := Host.Outcome State Fault Refusal

end Sys2Proof.Machine
end

