-- ==== Sys2Proof/Machine/Flags.lean ====
section
/-! DEFINITION. The status fields: MODE's and ERR's codes, and the STATUS word (10_state.md R26 to R29). -/

namespace Sys2Proof.Machine

/-- MODE as its two bits (R28). -/
def Mode.code : Mode → BitVec 2
  | .idle => 0#2
  | .enc => 1#2
  | .dec => 2#2
  | .encClosed => 3#2

/-- The named error codes (60_exceptions.md R202). -/
inductive ErrKind where
  | invalidBlockOrKeySize
  | insufficientInputLength
  | lengthMismatch
  | truncatedInput
  | illegalCmd
  | sequence
  | overrun
  deriving DecidableEq, Repr

/-- The code of an error (R202); code 0 is NONE, and 8 to 15 are reserved. -/
def ErrKind.code : ErrKind → BitVec 4
  | .invalidBlockOrKeySize => 1#4
  | .insufficientInputLength => 2#4
  | .lengthMismatch => 3#4
  | .truncatedInput => 4#4
  | .illegalCmd => 5#4
  | .sequence => 6#4
  | .overrun => 7#4

/-- ERR = NONE (R29). -/
def errNone : BitVec 4 := 0#4

/-- `STATUS = zext_64(ERR ‖ 0b0 ‖ MODE ‖ BUSY)` (R26). -/
def statusWord (e : Engine) : BitVec 64 :=
  (e.err ++ 0#1 ++ e.mode.code ++ BitVec.ofBool e.busy).setWidth 64

/-- ERR in a STATUS value (R26). -/
def statusErr (v : BitVec 64) : BitVec 4 := v.extractLsb' 4 4

/-- MODE in a STATUS value (R26). -/
def statusMode (v : BitVec 64) : BitVec 2 := v.extractLsb' 1 2

/-- BUSY in a STATUS value (R26). -/
def statusBusy (v : BitVec 64) : Bool := v.getLsbD 0

end Sys2Proof.Machine
end

