-- ==== Sys2Proof/Machine/Operands.lean ====
section
/-! DEFINITION. The datapath's operations on blocks (42_chaining.md R159): packing, padding, the bit permutation,
the XOR. All are pure functions of bit patterns; none can fail or overflow. -/

namespace Sys2Proof.Machine

/-- Byte k of a block in stream order, `REG[63-8k : 56-8k]` (20_memory.md R51). -/
def byteAt (v : BitVec 64) (k : Nat) : Byte := v.extractLsb' (56 - 8 * k) 8

/-- The eight bytes of a block in stream order (R51, R63). -/
def unpack (v : BitVec 64) : List Byte := (List.range 8).map (byteAt v)

/-- `b[0] ‖ b[1] ‖ ... ‖ b[7]` (R51); bytes the list does not have are zero (R63, and `ld` of R81). -/
def pack (b : List Byte) : BitVec 64 :=
  b.getD 0 0#8 ++ b.getD 1 0#8 ++ b.getD 2 0#8 ++ b.getD 3 0#8 ++
    b.getD 4 0#8 ++ b.getD 5 0#8 ++ b.getD 6 0#8 ++ b.getD 7 0#8

/-- `KeepMask(L)` (R141): ones in bytes 0 to L-1. -/
def keepMask (len : Nat) : BitVec 64 := 0xFFFFFFFFFFFFFFFF#64 <<< (64 - 8 * len)

/-- `PadReg(d, L)` (R141): bytes L to 7 of the slice are treated as zero. -/
def padReg (d : BitVec 64) (len : Nat) : BitVec 64 := d &&& keepMask len

/-- The logical bit at position p of a block is register bit `63 - p` (R51). -/
def logicalBitOf (v : BitVec 64) (p : Nat) : Bool := v.getLsbD (63 - p)

/-- `PermuteReg(v, T)` (40_permutation.md R102): logical bit i of the result is logical bit `T[i] - 1` of `v`, that
is, `r[63 - i] = v[64 - T[i]]`. -/
def permuteReg (v : BitVec 64) (table : List Nat) : BitVec 64 :=
  (BitVec.ofBoolListBE (table.map fun e => logicalBitOf v (e - 1))).setWidth 64

/-- The table PERM's SEL names (R104). -/
def tableOf (t : Tables) : TableSel → List Nat
  | .ip => t.ip
  | .ipinv => t.ipinv

end Sys2Proof.Machine
end

