-- ==== Sys2Proof/Machine/Ops.lean ====
section
/-! DEFINITION. The named operations over the registers: recording and clearing an error, counting stages, the host
port, acceptance and the end of completion, reset. -/

namespace Sys2Proof.Machine

/-- `RecordError(code)` (60_exceptions.md R201): this hardware's one way of taking an exception. The first error since
the last clear is kept, the session is closed, and nothing else is written. -/
def recordError (kind : ErrKind) (s : State) : State :=
  { s with err := if s.err = errNone then kind.code else s.err, mode := .idle }

/-- `ERR <- NONE` (R207): the clear that ENC_START, DEC_START and ABORT perform. -/
def clearError (s : State) : State := { s with err := errNone }

/-- `STGCNT <- (STGCNT + n) mod 2^32`, for n single-stage invocations (10_state.md R30, 41_stage_cascade.md R126). -/
def countStages (n : Nat) (s : State) : State := { s with stgcnt := s.stgcnt + BitVec.ofNat 32 n }

/-- What a port read returns (20_memory.md R54, R55). -/
def readPort (idx : BitVec 5) (e : Engine) : BitVec 64 :=
  match idx.toNat with
  | 0 => 0#64
  | 1 => statusWord e
  | 2 => e.din
  | 3 => e.dout
  | 4 => e.fb
  | 5 => e.stgcnt.setWidth 64
  | _ => 0#64

/-- Accept (70_reset_and_hazards.md R234): the command word and DIN are latched. -/
def accept (w : BitVec 64) (s : State) : State := { s with lcmd := w, ldin := s.din, busy := true }

/-- A write to CMD: a command while BUSY = 0, dropped with OVR set while BUSY = 1 (10_state.md R35, R237). -/
def writeCmd (w : BitVec 64) (s : State) : State := if s.busy then { s with ovr := true } else accept w s

/-- What a port write does (20_memory.md R54, R55, R57). -/
def writePort (idx : BitVec 5) (v : BitVec 64) (s : State) : State :=
  match idx.toNat with
  | 0 => writeCmd v s
  | 2 => { s with din := v }
  | _ => s

/-- A port read shows the host a value and changes no register (R57). -/
def observe (idx : BitVec 5) (s : State) : State :=
  { s with seen := s.seen ++ [{ idx := idx, value := readPort idx s.toEngine }] }

/-- The moves after one STATUS read of a `poll` (30_encoding.md R81): the host's other moves if bit 0 of the value read
is 0, else the poll again, with the engine's move first where `lat` says so. `s.turns` are the moves after the poll. -/
def pollNext (lat : Nat) (s : State) : List Turn :=
  if statusBusy (readPort 1#5 s.toEngine) then
    match lat with
    | 0 => .engine :: .poll 0 :: s.turns
    | n + 1 => .poll n :: s.turns
  else s.turns

/-- One STATUS read of a `poll`. -/
def pollRead (lat : Nat) (s : State) : State := observe 1#5 { s with turns := pollNext lat s }

/-- The end of Complete (R234): a dropped CMD write is recorded after the command's own result (R206), then BUSY
falls. -/
def finish (s : State) : State :=
  if s.ovr then { recordError .overrun s with ovr := false, busy := false } else { s with busy := false }

/-- Reset asserted (R230, R231): every register takes its reset value, a running command is abandoned, and the
configuration stays as it is. -/
def assertReset (s : State) : State := { s with toEngine := Engine.reset, resetLine := true }

/-- Reset released. -/
def releaseReset (s : State) : State := { s with resetLine := false }

/-- What a bus address selects (R53 to R56): the index `addr[7:3]` at ENGINE_BASE, for a whole aligned register. -/
inductive BusTarget where
  | port (idx : BitVec 5)
  | refused (why : Refusal)
  deriving DecidableEq, Repr

/-- The register index of a bus access (R53, R55, R56). -/
def busIndex (base addr : BitVec 64) (bytes : Nat) : BusTarget :=
  if addr.extractLsb' 8 56 ≠ base.extractLsb' 8 56 then .refused .outsidePort
  else if bytes = 8 ∧ addr.extractLsb' 0 3 = 0#3 then .port (addr.extractLsb' 3 5)
  else .refused .notWholeRegister

/-- One `Draw64()` (42_chaining.md R148): a free value, and the next draw is another one. -/
def drawValue (s : State) : BitVec 64 := Config.draw64 s.draws

/-- The draw has been answered. -/
def drawTaken (s : State) : State := { s with draws := s.draws + 1 }

end Sys2Proof.Machine
end

