-- ==== Sys2Proof/Machine/Stage.lean ====
section
/-! DEFINITION. The single stage and the cascade (41_stage_cascade.md), and their commands FWD, REV, CENC, CDEC.
The stage is two permutations and no cipher (00_scope.md R4); the keys are passed and ignored (R120, R121). -/

namespace Sys2Proof.Machine

/-- `Forward(b, k)` (R120). -/
def forward (t : Tables) (b _key : BitVec 64) : BitVec 64 := permuteReg (permuteReg b t.ip) t.ipinv

/-- `Reverse(b, k)` (R121). -/
def reverse (t : Tables) (b _key : BitVec 64) : BitVec 64 := permuteReg (permuteReg b t.ipinv) t.ip

/-- `CascadeEnc(b)` (R124): KEY1, then KEY2, then KEY3. -/
def cascadeEnc (t : Tables) (b : BitVec 64) : BitVec 64 :=
  forward t (forward t (forward t b (Config.key .k1)) (Config.key .k2)) (Config.key .k3)

/-- `CascadeDec(b)` (R125): KEY3, then KEY2, then KEY1. -/
def cascadeDec (t : Tables) (b : BitVec 64) : BitVec 64 :=
  reverse t (reverse t (reverse t b (Config.key .k3)) (Config.key .k2)) (Config.key .k1)

/-- FWD (R127). -/
def execFwd (key : KeySel) (s : State) : Result :=
  .next (countStages 1 { s with dout := forward s.params.tables s.ldin (Config.key key) })

/-- REV (R128). -/
def execRev (key : KeySel) (s : State) : Result :=
  .next (countStages 1 { s with dout := reverse s.params.tables s.ldin (Config.key key) })

/-- CENC (R129). -/
def execCenc (s : State) : Result :=
  .next (countStages 3 { s with dout := cascadeEnc s.params.tables s.ldin })

/-- CDEC (R130). -/
def execCdec (s : State) : Result :=
  .next (countStages 3 { s with dout := cascadeDec s.params.tables s.ldin })

end Sys2Proof.Machine
end

