-- ==== Sys2Proof/Machine/Chaining.lean ====
section
/-! DEFINITION. The session commands (42_chaining.md): ENC_START, ENC_BLOCK, DEC_START, DEC_BLOCK. Each checks for
errors before it writes anything (60_exceptions.md R204, R205). -/

namespace Sys2Proof.Machine

/-- The IV is the feedback value and the stream's first block (R149). -/
def openEncrypt (iv : BitVec 64) (s : State) : State :=
  { clearError s with fb := iv, dout := iv, mode := .enc }

/-- ENC_START (R149). With `rng` the IV is one draw; a source that never answers leaves the command stuck (I12). -/
def execEncStart (src : IvSrc) (s : State) : Result :=
  match src with
  | .din => .next (openEncrypt s.ldin s)
  | .rng => if s.params.rngReady then .next (openEncrypt (drawValue s) (drawTaken s)) else .fault .drawUnanswered

/-- ENC_BLOCK (R150): pad, XOR with the feedback value, cascade; a short slice is the last one. -/
def execEncBlock (len : Nat) (s : State) : Result :=
  if s.mode ≠ .enc then .next (recordError .sequence s)
  else
    let c := cascadeEnc s.params.tables (padReg s.ldin len ^^^ s.fb)
    .next (countStages 3 { s with dout := c, fb := c, mode := if len < 8 then .encClosed else s.mode })

/-- DEC_START (R151): ERR is cleared before the length check. -/
def execDecStart (len : Nat) (s : State) : Result :=
  if len < 8 then .next (recordError .truncatedInput (clearError s))
  else .next { clearError s with fb := s.ldin, mode := .dec }

/-- DEC_BLOCK (R152): reverse cascade, then XOR; the feedback value becomes the ciphertext. -/
def execDecBlock (len : Nat) (s : State) : Result :=
  if s.mode ≠ .dec then .next (recordError .sequence s)
  else if len < 8 then .next (recordError .lengthMismatch s)
  else .next (countStages 3 { s with dout := cascadeDec s.params.tables s.ldin ^^^ s.fb, fb := s.ldin })

end Sys2Proof.Machine
end

