-- ==== Sys2Proof/Machine/Control.lean ====
section
/-! DEFINITION. The commands that move no data (43_control.md): NOP and ABORT. -/

namespace Sys2Proof.Machine

/-- NOP (R180): skip. -/
def execNop (s : State) : Result := .next s

/-- ABORT (R181): the session is closed and ERR cleared. -/
def execAbort (s : State) : Result := .next { clearError s with mode := .idle }

end Sys2Proof.Machine
end

