-- ==== Sys2Proof/Machine/Permutation.lean ====
section
/-! DEFINITION. The command of the bit-permutation primitive (40_permutation.md): PERM. -/

namespace Sys2Proof.Machine

/-- PERM (R104): `DOUT <- PermuteReg(d, T)`. -/
def execPerm (table : TableSel) (s : State) : Result :=
  .next { s with dout := permuteReg s.ldin (tableOf s.params.tables table) }

end Sys2Proof.Machine
end

