-- ==== Sys2Proof/Machine/Dispatch.lean ====
section
/-! DEFINITION. One arm for each command: `Execute` of 70_reset_and_hazards.md R234 on a decoded word. -/

namespace Sys2Proof.Machine

def exec (i : Instr) (s : State) : Host.Outcome State Fault Refusal :=
  match i with
  | .nop => Sys2Proof.Machine.execNop s
  | .encStart src => Sys2Proof.Machine.execEncStart src s
  | .encBlock len => Sys2Proof.Machine.execEncBlock len s
  | .decStart len => Sys2Proof.Machine.execDecStart len s
  | .decBlock len => Sys2Proof.Machine.execDecBlock len s
  | .abort => Sys2Proof.Machine.execAbort s
  | .perm table => Sys2Proof.Machine.execPerm table s
  | .fwd key => Sys2Proof.Machine.execFwd key s
  | .rev key => Sys2Proof.Machine.execRev key s
  | .cenc => Sys2Proof.Machine.execCenc s
  | .cdec => Sys2Proof.Machine.execCdec s

end Sys2Proof.Machine
end

