-- ==== Sys2Proof/Machine/Engine.lean ====
section
/-! DEFINITION. What a move of each agent does: Complete (70_reset_and_hazards.md R234), the host's transactions
(20_memory.md R53 to R57) and reset (R230 to R232); and how a command is placed for the next step to run. -/

namespace Sys2Proof.Machine

/-- `Execute(Decode(LCMD), LDIN)` (R234): the command's rule, or RecordError(ILLEGAL_CMD) (30_encoding.md R78). -/
def execWord (w : BitVec 64) (s : State) : Result :=
  match decode w with
  | .instr i => exec i s
  | .illegal _ => .next (recordError .illegalCmd s)

/-- Complete (R234). A command whose draw is never answered does not complete (93_implementation_defined.md I12):
BUSY stays 1 and the host goes on. -/
def complete (s : State) : Result :=
  match execWord s.lcmd s with
  | .next t => .next (finish t)
  | .fault .drawUnanswered => .next s
  | .refused why => .refused why

/-- The engine's move: Complete is enabled when BUSY = 1 (R234). -/
def engineMove (s : State) : Result := if s.busy then complete s else .next s

/-- The host performs no transaction while reset is asserted; the model refuses one (R232; I7). -/
def transact (s t : State) : Result := if s.resetLine then .refused .transactionDuringReset else .next t

/-- The agent whose turn it is moves. -/
def takeTurn (turn : Turn) (s : State) : Result :=
  match turn with
  | .engine => engineMove s
  | .read idx => transact s (observe idx s)
  | .write idx v => transact s (writePort idx v s)
  | .busRead addr bytes =>
    match busIndex s.params.engineBase addr bytes with
    | .port idx => transact s (observe idx s)
    | .refused why => .refused why
  | .busWrite addr bytes v =>
    match busIndex s.params.engineBase addr bytes with
    | .port idx => transact s (writePort idx v s)
    | .refused why => .refused why
  | .poll lat => transact s (pollRead lat s)
  | .assertReset => .next (assertReset s)
  | .releaseReset => .next (releaseReset s)

/-- The next move. When the host has no move left, a command that is running still completes (R235's fairness), and
otherwise the engine waits (60_exceptions.md R216). -/
def nextMove (s : State) : Result :=
  match s.turns with
  | [] => engineMove s
  | turn :: rest => takeTurn turn { s with turns := rest }

/-- The state in which the command word `w` is accepted and the engine is the next to move: what a CMD write of `w`
leaves (R234), with reset released, as it is whenever a command is running. -/
def placeCommand (w : BitVec 64) (s : State) : State :=
  { accept w s with resetLine := false, turns := .engine :: s.turns }

end Sys2Proof.Machine
end

