-- ==== Sys2Proof/Machine/Step.lean ====
section
/-! DEFINITION. One step: the next agent's move. -/

namespace Sys2Proof.Machine

/-- One step of the machine: the first of the moves to come, or the engine's own when there is none. -/
def step (s : State) : Host.Outcome State Fault Refusal := nextMove s

/-- The table word `w` accepted as the running command, so that the next step executes it. The engine has no program
counter and fetches nothing (10_state.md R25): a command runs because the host wrote it to CMD
(notes/assumptions/8.md). -/
def State.withFetchWord (s : State) (nbits w : Nat) : State := placeCommand (tableWord nbits w) s

end Sys2Proof.Machine
end

