-- ==== Sys2Proof/Laws/Decode.lean ====
section
/-! SUPPORT. The fields of a command word, and what each helper of the decoder can answer. -/

namespace Sys2Proof

section fields
variable (sel : BitVec 2) (len op : BitVec 4)

/-- The bits of a command word (30_encoding.md R70). -/
theorem commandWord_getLsbD (i : Nat) : (commandWord sel len op).getLsbD i =
    if i < 4 then op.getLsbD i else if i - 4 < 4 then len.getLsbD (i - 4)
    else if i - 4 - 4 < 2 then sel.getLsbD (i - 4 - 4) else false := by
  unfold commandWord
  simp only [BitVec.getLsbD_append, BitVec.getLsbD_zero]

@[simp] theorem opField_commandWord : opField (commandWord sel len op) = op := by
  apply BitVec.eq_of_getLsbD_eq
  intro i hi
  simp only [opField, BitVec.getLsbD_extractLsb', commandWord_getLsbD]
  simp [hi]

@[simp] theorem lenField_commandWord : lenField (commandWord sel len op) = len := by
  apply BitVec.eq_of_getLsbD_eq
  intro i hi
  simp only [lenField, BitVec.getLsbD_extractLsb', commandWord_getLsbD]
  simp [hi]

@[simp] theorem selField_commandWord : selField (commandWord sel len op) = sel := by
  apply BitVec.eq_of_getLsbD_eq
  intro i hi
  simp only [selField, BitVec.getLsbD_extractLsb', commandWord_getLsbD]
  rw [if_neg (by omega), if_neg (by omega), if_pos (by omega), show 8 + i - 4 - 4 = i by omega]
  simp [hi]

@[simp] theorem rsvField_commandWord : rsvField (commandWord sel len op) = 0#54 := by
  apply BitVec.eq_of_getLsbD_eq
  intro i hi
  simp only [rsvField, BitVec.getLsbD_extractLsb', commandWord_getLsbD]
  rw [if_neg (by omega), if_neg (by omega), if_neg (by omega)]
  simp

end fields

/-- A word without reserved bits is the word of its three fields (30_encoding.md R76). -/
theorem commandWord_fields {w : BitVec 64} (h : rsvField w = 0#54) :
    commandWord (selField w) (lenField w) (opField w) = w := by
  apply BitVec.eq_of_getLsbD_eq
  intro i hi
  have hr : ∀ j, j < 54 → w.getLsbD (10 + j) = false := by
    intro j hj
    have := congrArg (fun v : BitVec 54 => v.getLsbD j) h
    simpa [rsvField, hj] using this
  rw [commandWord_getLsbD]
  simp only [opField, lenField, selField, BitVec.getLsbD_extractLsb']
  split_ifs with h1 h2 h3
  · simp [h1]
  · simp [h2, show 4 + (i - 4) = i by omega]
  · simp [h3, show 8 + (i - 4 - 4) = i by omega]
  · have := hr (i - 10) (by omega)
    rw [show 10 + (i - 10) = i by omega] at this
    exact this.symm

/-- Decoding the word of three fields reads exactly these fields (R77). -/
@[simp] theorem decode_commandWord (sel : BitVec 2) (len op : BitVec 4) :
    decode (commandWord sel len op) = decodeOp op len sel := by
  simp [decode]

theorem decodePlain_instr {c i : Instr} {len : BitVec 4} {sel : BitVec 2} (h : decodePlain c len sel = .instr i) :
    i = c ∧ len = 0#4 ∧ sel = 0#2 := by
  unfold decodePlain at h
  split at h <;> simp_all

theorem decodeChoice_instr {zero one i : Instr} {len : BitVec 4} {sel : BitVec 2}
    (h : decodeChoice zero one len sel = .instr i) :
    len = 0#4 ∧ ((i = zero ∧ sel = 0#2) ∨ (i = one ∧ sel = 1#2)) := by
  unfold decodeChoice at h
  split at h
  · simp_all
  · split at h <;> simp_all

theorem decodeKey_instr {cmd : KeySel → Instr} {i : Instr} {len : BitVec 4} {sel : BitVec 2}
    (h : decodeKey cmd len sel = .instr i) : len = 0#4 ∧ ∃ key, i = cmd key ∧ sel = key.sel := by
  unfold decodeKey at h
  split at h
  · exact ⟨by simp_all, .k1, by simp_all [KeySel.sel]⟩
  · split at h
    · exact ⟨by simp_all, .k2, by simp_all [KeySel.sel]⟩
    · split at h
      · exact ⟨by simp_all, .k3, by simp_all [KeySel.sel]⟩
      · simp at h

theorem decodeCount_instr {cmd : Nat → Instr} {ok : Nat → Bool} {i : Instr} {len : BitVec 4} {sel : BitVec 2}
    (h : decodeCount cmd ok len sel = .instr i) : i = cmd len.toNat ∧ ok len.toNat = true ∧ sel = 0#2 := by
  unfold decodeCount at h
  split at h <;> simp_all

/-- A count of at most 8 keeps its value in the four bits of LEN (R72). -/
theorem toNat_ofNat_len {len : Nat} (h : len ≤ 8) : (BitVec.ofNat 4 len).toNat = len := by
  simp only [BitVec.toNat_ofNat]
  omega

end Sys2Proof
end

