-- ==== Sys2Proof/Laws/PerInstr.lean ====
section
/-! SUPPORT. What is said of every command as syntax, one lemma for each constructor. The family TableRow: the word a
well-formed command is encoded to matches the command's own row of the opcode table, mask, match and free fields
(30_encoding.md R76). -/

namespace Sys2Proof.Laws.TableRow

/-- The command's row is in the table and accepts the command's word (R76). -/
def Statement (i : Instr) : Prop := i.wf = true → i.row ∈ opcodeTable ∧ i.row.accepts (encode i) = true

theorem nop : Statement .nop := fun _ => by decide

theorem encStart (src : IvSrc) : Statement (.encStart src) := fun _ => by cases src <;> decide

theorem encBlock (len : Nat) : Statement (.encBlock len) := by
  intro h
  simp only [Instr.wf, blockLenOk, Bool.and_eq_true, decide_eq_true_eq] at h
  obtain ⟨h1, h8⟩ := h
  interval_cases len <;> decide

theorem decStart (len : Nat) : Statement (.decStart len) := by
  intro h
  simp only [Instr.wf, ivLenOk, decide_eq_true_eq] at h
  interval_cases len <;> decide

theorem decBlock (len : Nat) : Statement (.decBlock len) := by
  intro h
  simp only [Instr.wf, blockLenOk, Bool.and_eq_true, decide_eq_true_eq] at h
  obtain ⟨h1, h8⟩ := h
  interval_cases len <;> decide

theorem abort : Statement .abort := fun _ => by decide

theorem perm (table : TableSel) : Statement (.perm table) := fun _ => by cases table <;> decide

theorem fwd (key : KeySel) : Statement (.fwd key) := fun _ => by cases key <;> decide

theorem rev (key : KeySel) : Statement (.rev key) := fun _ => by cases key <;> decide

theorem cenc : Statement .cenc := fun _ => by decide

theorem cdec : Statement .cdec := fun _ => by decide

end Sys2Proof.Laws.TableRow
end

