-- ==== Sys2Proof/Machine/Message.lean ====
section
/-! DEFINITION. The source's message-level functions on byte sequences: Permute (40_permutation.md R100), the single
stage (41_stage_cascade.md R120 to R123), and XorBytes, PadSlice, Slices, Encrypt, Decrypt (42_chaining.md R140 to
R144). They are normative: claims about whole messages are stated through them. The engine does not run them. -/

namespace Sys2Proof.Machine

/-- The source's four error kinds (60_exceptions.md R202, R203). -/
inductive MsgError where
  | invalidBlockOrKeySize
  | insufficientInputLength
  | lengthMismatch
  | truncatedInput
  deriving DecidableEq, Repr

/-- The result of a message-level function: bytes, or the failed result `Error(kind)` (00_scope.md R12). -/
abbrev MsgResult := Except MsgError (List Byte)

/-- `n` bytes of value 0 (R11). -/
def zeros (n : Nat) : List Byte := List.replicate n 0#8

/-- The logical bit that a 1-based table entry names, MSB first within each byte (R11, R100). -/
def logicalBit (data : List Byte) (entry : Nat) : Bool :=
  if 1 ≤ entry ∧ entry ≤ 8 * data.length then
    (data.getD ((entry - 1) / 8) 0#8).getLsbD (7 - (entry - 1) % 8)
  else Config.absentBit entry

/-- A byte from its eight logical bits, the first the most significant. -/
def byteOfBits (bits : List Bool) : Byte := (BitVec.ofBoolListBE bits).setWidth 8

/-- `permute(data, table)` (R100). -/
def permute (data : List Byte) (table : List Nat) : MsgResult :=
  if 8 * data.length < table.length then .error .insufficientInputLength
  else .ok ((List.range (table.length / 8)).map fun j =>
    byteOfBits (((table.drop (8 * j)).take 8).map (logicalBit data)))

/-- Two permutations of one block, after the size check (R120 to R123). -/
def stageBytes (first second : List Nat) (block key : List Byte) : MsgResult :=
  if block.length ≠ 8 ∨ key.length ≠ 8 then .error .invalidBlockOrKeySize
  else (permute block first).bind fun mid => permute mid second

/-- The source's `forward(block, key)` (R120, R123). -/
def forwardBytes (t : Tables) (block key : List Byte) : MsgResult := stageBytes t.ip t.ipinv block key

/-- The source's `reverse(block, key)` (R121, R123). -/
def reverseBytes (t : Tables) (block key : List Byte) : MsgResult := stageBytes t.ipinv t.ip block key

/-- `XorBytes(a, b)` (R140). -/
def xorBytes (a b : List Byte) : MsgResult :=
  if a.length ≠ b.length then .error .lengthMismatch else .ok (List.zipWith (fun x y => x ^^^ y) a b)

/-- `PadSlice(s)` (R141). -/
def padSlice (s : List Byte) : List Byte := s ++ zeros (8 - s.length)

/-- `Slices(x)`: `x[0:8], x[8:16], ...`, the last one short when 8 does not divide `|x|` (R142). -/
def slices (x : List Byte) : List (List Byte) :=
  (List.range ((x.length + 7) / 8)).map fun j => (x.drop (8 * j)).take 8

/-- The loop of Encrypt (R143, step 3): the blocks appended to the output. -/
def encryptSlices (t : Tables) (prev : List Byte) : List (List Byte) → MsgResult
  | [] => .ok []
  | s :: rest =>
    (xorBytes (padSlice s) prev).bind fun x =>
      let c := unpack (cascadeEnc t (pack x))
      (encryptSlices t c rest).map fun out => c ++ out

/-- `Encrypt(p, iv)` (R143). -/
def encrypt (t : Tables) (p iv : List Byte) : MsgResult :=
  (encryptSlices t iv (slices p)).map fun out => iv ++ out

/-- The loop of Decrypt (R144, step 4): a short slice fails, and the feedback is the ciphertext block (R145). -/
def decryptSlices (t : Tables) (prev : List Byte) : List (List Byte) → MsgResult
  | [] => .ok []
  | c :: rest =>
    if c.length < 8 then .error .lengthMismatch
    else
      (xorBytes (unpack (cascadeDec t (pack c))) prev).bind fun plain =>
        (decryptSlices t c rest).map fun out => plain ++ out

/-- `Decrypt(s)` (R144). -/
def decrypt (t : Tables) (s : List Byte) : MsgResult :=
  if s.length < 8 then .error .truncatedInput else decryptSlices t (s.take 8) (slices (s.drop 8))

end Sys2Proof.Machine
end

