-- ==== Sys2Proof/Laws/Bytes.lean ====
section
/-! SUPPORT. Blocks as bytes and as logical bits: packing and unpacking undo each other, and slices peel off one at a
time. -/

namespace Sys2Proof.Machine

/-- A block is its logical bits (20_memory.md R51). -/
theorem block_ext {a b : BitVec 64} (h : ∀ p, p < 64 → logicalBitOf a p = logicalBitOf b p) : a = b := by
  apply BitVec.eq_of_getLsbD_eq
  intro i hi
  have := h (63 - i) (by omega)
  simpa [logicalBitOf, show 63 - (63 - i) = i by omega] using this

@[simp] theorem unpack_length (v : BitVec 64) : (unpack v).length = 8 := by simp [unpack]

@[simp] theorem zeros_length (n : Nat) : (zeros n).length = n := by simp [zeros]

theorem unpack_eq (v : BitVec 64) :
    unpack v = [byteAt v 0, byteAt v 1, byteAt v 2, byteAt v 3, byteAt v 4, byteAt v 5, byteAt v 6, byteAt v 7] := rfl

/-- Bit q of byte k of a block is register bit `56 - 8k + q` (R51). -/
theorem byteAt_getLsbD (v : BitVec 64) (k q : Nat) :
    (byteAt v k).getLsbD q = (decide (q < 8) && v.getLsbD (56 - 8 * k + q)) := by
  simp [byteAt]

/-- Logical bit p of a block is bit `7 - (p mod 8)` of its byte `p div 8` (00_scope.md R11). -/
theorem logicalBitOf_byteAt (v : BitVec 64) {p : Nat} (hp : p < 64) :
    logicalBitOf v p = (byteAt v (p / 8)).getLsbD (7 - p % 8) := by
  rw [byteAt_getLsbD, logicalBitOf]
  rw [show 56 - 8 * (p / 8) + (7 - p % 8) = 63 - p by omega]
  simp [show 7 - p % 8 < 8 by omega]

/-- Register bit i of a packed block is bit `i mod 8` of byte `7 - i div 8` (R51). -/
theorem pack_getLsbD (b : List Byte) {i : Nat} (hi : i < 64) :
    (pack b).getLsbD i = (b.getD (7 - i / 8) 0#8).getLsbD (i % 8) := by
  unfold pack
  simp only [BitVec.getLsbD_append]
  split_ifs <;> congr 2 <;> omega

/-- Byte k of a packed block is byte k of the list (R51). -/
theorem byteAt_pack (b : List Byte) {k : Nat} (hk : k < 8) : byteAt (pack b) k = b.getD k 0#8 := by
  apply BitVec.eq_of_getLsbD_eq
  intro q hq
  rw [byteAt_getLsbD, pack_getLsbD _ (by omega)]
  rw [show 7 - (56 - 8 * k + q) / 8 = k by omega, show (56 - 8 * k + q) % 8 = q by omega]
  simp [hq]

@[simp] theorem pack_unpack (v : BitVec 64) : pack (unpack v) = v := by
  apply block_ext
  intro p hp
  rw [logicalBitOf_byteAt _ hp, byteAt_pack _ (by omega), logicalBitOf_byteAt _ hp]
  have : p / 8 < 8 := by omega
  simp [unpack, List.getD, this]

theorem unpack_pack {b : List Byte} (h : b.length = 8) : unpack (pack b) = b := by
  apply List.ext_getElem (by simp [h])
  intro k hk _
  have hk8 : k < 8 := by simpa using hk
  simp [unpack, byteAt_pack b hk8, List.getD, h, hk8]

/-- Two lists with the same first eight bytes, missing bytes read as zero, pack alike. -/
theorem pack_congr {a b : List Byte} (h : ∀ k, k < 8 → a.getD k 0#8 = b.getD k 0#8) : pack a = pack b := by
  simp only [pack, h 0 (by omega), h 1 (by omega), h 2 (by omega), h 3 (by omega), h 4 (by omega), h 5 (by omega),
    h 6 (by omega), h 7 (by omega)]

@[simp] theorem slices_nil : slices [] = [] := rfl

/-- The first slice is the first eight bytes (42_chaining.md R142). -/
theorem slices_of_ne_nil {x : List Byte} (h : x ≠ []) : slices x = x.take 8 :: slices (x.drop 8) := by
  have hx : 0 < x.length := List.length_pos_iff.mpr h
  have hn : (x.length + 7) / 8 = (x.length - 8 + 7) / 8 + 1 := by omega
  unfold slices
  rw [hn, List.range_succ_eq_map]
  simp [Function.comp_def, Nat.mul_succ, Nat.add_comm]

/-- The number of slices is `ceil(|x| / 8)` (R142). -/
@[simp] theorem slices_length (x : List Byte) : (slices x).length = (x.length + 7) / 8 := by simp [slices]

end Sys2Proof.Machine
end

