-- ==== Sys2Proof/Laws/Permutation.lean ====
section
/-! SUPPORT. The bit permutation, one logical bit at a time, and what the constraints of 40_permutation.md R103 give
for each entry of the tables. -/

namespace Sys2Proof.Machine

/-- Logical bit i of the result is logical bit `T[i] - 1` of the input (R102). -/
theorem logicalBitOf_permuteReg (v : BitVec 64) {table : List Nat} (hlen : table.length = 64) {i : Nat} (hi : i < 64) :
    logicalBitOf (permuteReg v table) i = logicalBitOf v (table.getD i 0 - 1) := by
  have hget : ∀ (n : Nat) (bs : List Bool), bs.length = n → i < n →
      ((BitVec.ofBoolListBE bs).setWidth n).getLsbD (n - 1 - i) = bs.getD i false := by
    intro n bs hn hin
    subst hn
    have := BitVec.getMsbD_ofBoolListBE (bs := bs) (i := i)
    simpa [BitVec.getMsbD, hin, show bs.length - 1 - i < bs.length by omega] using this
  have := hget 64 (table.map fun e => logicalBitOf v (e - 1)) (by simpa using hlen) hi
  unfold permuteReg
  rw [logicalBitOf]
  simpa [List.getD, hlen, hi] using this

theorem tableRange_length {t : List Nat} (h : tableRange t = true) : t.length = 64 := by
  simp only [tableRange, Bool.and_eq_true, beq_iff_eq] at h
  exact h.1

theorem tableRange_getD {t : List Nat} (h : tableRange t = true) {i : Nat} (hi : i < 64) :
    1 ≤ t.getD i 0 ∧ t.getD i 0 ≤ 64 := by
  have hlen := tableRange_length h
  simp only [tableRange, Bool.and_eq_true, List.all_eq_true, decide_eq_true_eq] at h
  have : t.getD i 0 = t[i]'(by omega) := by simp [List.getD, hlen, hi]
  rw [this]
  exact h.2 _ (List.getElem_mem _)

theorem tableUndoes_getD {t u : List Nat} (h : tableUndoes t u = true) {i : Nat} (hi : i < 64) :
    t.getD (u.getD i 0 - 1) 0 = i + 1 := by
  simp only [tableUndoes, List.all_eq_true, List.mem_range, beq_iff_eq] at h
  exact h i hi

/-- The constraints of R103 in the form proofs use. -/
theorem tables_ok {t : Tables} (h : t.ok = true) :
    (tableRange t.ip = true ∧ tableRange t.ipinv = true) ∧
      (tableUndoes t.ip t.ipinv = true ∧ tableUndoes t.ipinv t.ip = true) := by
  simp only [Tables.ok, Bool.and_eq_true] at h
  exact ⟨⟨h.1.1.1.1.1, h.1.1.1.1.2⟩, h.1.2, h.2⟩

/-- The default tables meet (a) to (c) of R103. -/
theorem defaultTables_ok : defaultTables.ok = true := by decide

end Sys2Proof.Machine
end

