-- ==== Sys2Proof/Laws/State.lean ====
section
/-! SUPPORT. What each named update of the state leaves in each field, one lemma per field per update: no later proof
unfolds a record update. -/

namespace Sys2Proof.Machine

variable (s : State)

/-! ### recordError -/

@[simp] theorem recordError_din (k : ErrKind) : (recordError k s).din = s.din := rfl
@[simp] theorem recordError_dout (k : ErrKind) : (recordError k s).dout = s.dout := rfl
@[simp] theorem recordError_fb (k : ErrKind) : (recordError k s).fb = s.fb := rfl
@[simp] theorem recordError_mode (k : ErrKind) : (recordError k s).mode = .idle := rfl
@[simp] theorem recordError_err (k : ErrKind) : (recordError k s).err = if s.err = errNone then k.code else s.err := rfl
@[simp] theorem recordError_busy (k : ErrKind) : (recordError k s).busy = s.busy := rfl
@[simp] theorem recordError_stgcnt (k : ErrKind) : (recordError k s).stgcnt = s.stgcnt := rfl
@[simp] theorem recordError_lcmd (k : ErrKind) : (recordError k s).lcmd = s.lcmd := rfl
@[simp] theorem recordError_ldin (k : ErrKind) : (recordError k s).ldin = s.ldin := rfl
@[simp] theorem recordError_ovr (k : ErrKind) : (recordError k s).ovr = s.ovr := rfl
@[simp] theorem recordError_params (k : ErrKind) : (recordError k s).params = s.params := rfl
@[simp] theorem recordError_resetLine (k : ErrKind) : (recordError k s).resetLine = s.resetLine := rfl
@[simp] theorem recordError_turns (k : ErrKind) : (recordError k s).turns = s.turns := rfl
@[simp] theorem recordError_seen (k : ErrKind) : (recordError k s).seen = s.seen := rfl
@[simp] theorem recordError_draws (k : ErrKind) : (recordError k s).draws = s.draws := rfl

/-! ### clearError -/

@[simp] theorem clearError_din : (clearError s).din = s.din := rfl
@[simp] theorem clearError_dout : (clearError s).dout = s.dout := rfl
@[simp] theorem clearError_fb : (clearError s).fb = s.fb := rfl
@[simp] theorem clearError_mode : (clearError s).mode = s.mode := rfl
@[simp] theorem clearError_err : (clearError s).err = errNone := rfl
@[simp] theorem clearError_busy : (clearError s).busy = s.busy := rfl
@[simp] theorem clearError_stgcnt : (clearError s).stgcnt = s.stgcnt := rfl
@[simp] theorem clearError_lcmd : (clearError s).lcmd = s.lcmd := rfl
@[simp] theorem clearError_ldin : (clearError s).ldin = s.ldin := rfl
@[simp] theorem clearError_ovr : (clearError s).ovr = s.ovr := rfl
@[simp] theorem clearError_params : (clearError s).params = s.params := rfl
@[simp] theorem clearError_resetLine : (clearError s).resetLine = s.resetLine := rfl
@[simp] theorem clearError_turns : (clearError s).turns = s.turns := rfl
@[simp] theorem clearError_seen : (clearError s).seen = s.seen := rfl
@[simp] theorem clearError_draws : (clearError s).draws = s.draws := rfl

/-! ### countStages -/

@[simp] theorem countStages_din (n : Nat) : (countStages n s).din = s.din := rfl
@[simp] theorem countStages_dout (n : Nat) : (countStages n s).dout = s.dout := rfl
@[simp] theorem countStages_fb (n : Nat) : (countStages n s).fb = s.fb := rfl
@[simp] theorem countStages_mode (n : Nat) : (countStages n s).mode = s.mode := rfl
@[simp] theorem countStages_err (n : Nat) : (countStages n s).err = s.err := rfl
@[simp] theorem countStages_busy (n : Nat) : (countStages n s).busy = s.busy := rfl
@[simp] theorem countStages_stgcnt (n : Nat) : (countStages n s).stgcnt = s.stgcnt + BitVec.ofNat 32 n := rfl
@[simp] theorem countStages_lcmd (n : Nat) : (countStages n s).lcmd = s.lcmd := rfl
@[simp] theorem countStages_ldin (n : Nat) : (countStages n s).ldin = s.ldin := rfl
@[simp] theorem countStages_ovr (n : Nat) : (countStages n s).ovr = s.ovr := rfl
@[simp] theorem countStages_params (n : Nat) : (countStages n s).params = s.params := rfl
@[simp] theorem countStages_resetLine (n : Nat) : (countStages n s).resetLine = s.resetLine := rfl
@[simp] theorem countStages_turns (n : Nat) : (countStages n s).turns = s.turns := rfl
@[simp] theorem countStages_seen (n : Nat) : (countStages n s).seen = s.seen := rfl
@[simp] theorem countStages_draws (n : Nat) : (countStages n s).draws = s.draws := rfl

/-! ### accept -/

@[simp] theorem accept_din (w : BitVec 64) : (accept w s).din = s.din := rfl
@[simp] theorem accept_dout (w : BitVec 64) : (accept w s).dout = s.dout := rfl
@[simp] theorem accept_fb (w : BitVec 64) : (accept w s).fb = s.fb := rfl
@[simp] theorem accept_mode (w : BitVec 64) : (accept w s).mode = s.mode := rfl
@[simp] theorem accept_err (w : BitVec 64) : (accept w s).err = s.err := rfl
@[simp] theorem accept_busy (w : BitVec 64) : (accept w s).busy = true := rfl
@[simp] theorem accept_stgcnt (w : BitVec 64) : (accept w s).stgcnt = s.stgcnt := rfl
@[simp] theorem accept_lcmd (w : BitVec 64) : (accept w s).lcmd = w := rfl
@[simp] theorem accept_ldin (w : BitVec 64) : (accept w s).ldin = s.din := rfl
@[simp] theorem accept_ovr (w : BitVec 64) : (accept w s).ovr = s.ovr := rfl
@[simp] theorem accept_params (w : BitVec 64) : (accept w s).params = s.params := rfl
@[simp] theorem accept_resetLine (w : BitVec 64) : (accept w s).resetLine = s.resetLine := rfl
@[simp] theorem accept_turns (w : BitVec 64) : (accept w s).turns = s.turns := rfl
@[simp] theorem accept_seen (w : BitVec 64) : (accept w s).seen = s.seen := rfl
@[simp] theorem accept_draws (w : BitVec 64) : (accept w s).draws = s.draws := rfl

/-! ### observe -/

@[simp] theorem observe_din (idx : BitVec 5) : (observe idx s).din = s.din := rfl
@[simp] theorem observe_dout (idx : BitVec 5) : (observe idx s).dout = s.dout := rfl
@[simp] theorem observe_fb (idx : BitVec 5) : (observe idx s).fb = s.fb := rfl
@[simp] theorem observe_mode (idx : BitVec 5) : (observe idx s).mode = s.mode := rfl
@[simp] theorem observe_err (idx : BitVec 5) : (observe idx s).err = s.err := rfl
@[simp] theorem observe_busy (idx : BitVec 5) : (observe idx s).busy = s.busy := rfl
@[simp] theorem observe_stgcnt (idx : BitVec 5) : (observe idx s).stgcnt = s.stgcnt := rfl
@[simp] theorem observe_lcmd (idx : BitVec 5) : (observe idx s).lcmd = s.lcmd := rfl
@[simp] theorem observe_ldin (idx : BitVec 5) : (observe idx s).ldin = s.ldin := rfl
@[simp] theorem observe_ovr (idx : BitVec 5) : (observe idx s).ovr = s.ovr := rfl
@[simp] theorem observe_params (idx : BitVec 5) : (observe idx s).params = s.params := rfl
@[simp] theorem observe_resetLine (idx : BitVec 5) : (observe idx s).resetLine = s.resetLine := rfl
@[simp] theorem observe_turns (idx : BitVec 5) : (observe idx s).turns = s.turns := rfl
@[simp] theorem observe_seen (idx : BitVec 5) : (observe idx s).seen = s.seen ++ [ReadValue.mk idx (readPort idx s.toEngine)] := rfl
@[simp] theorem observe_draws (idx : BitVec 5) : (observe idx s).draws = s.draws := rfl

/-! ### releaseReset -/

@[simp] theorem releaseReset_din : (releaseReset s).din = s.din := rfl
@[simp] theorem releaseReset_dout : (releaseReset s).dout = s.dout := rfl
@[simp] theorem releaseReset_fb : (releaseReset s).fb = s.fb := rfl
@[simp] theorem releaseReset_mode : (releaseReset s).mode = s.mode := rfl
@[simp] theorem releaseReset_err : (releaseReset s).err = s.err := rfl
@[simp] theorem releaseReset_busy : (releaseReset s).busy = s.busy := rfl
@[simp] theorem releaseReset_stgcnt : (releaseReset s).stgcnt = s.stgcnt := rfl
@[simp] theorem releaseReset_lcmd : (releaseReset s).lcmd = s.lcmd := rfl
@[simp] theorem releaseReset_ldin : (releaseReset s).ldin = s.ldin := rfl
@[simp] theorem releaseReset_ovr : (releaseReset s).ovr = s.ovr := rfl
@[simp] theorem releaseReset_params : (releaseReset s).params = s.params := rfl
@[simp] theorem releaseReset_resetLine : (releaseReset s).resetLine = false := rfl
@[simp] theorem releaseReset_turns : (releaseReset s).turns = s.turns := rfl
@[simp] theorem releaseReset_seen : (releaseReset s).seen = s.seen := rfl
@[simp] theorem releaseReset_draws : (releaseReset s).draws = s.draws := rfl

/-! ### drawTaken -/

@[simp] theorem drawTaken_din : (drawTaken s).din = s.din := rfl
@[simp] theorem drawTaken_dout : (drawTaken s).dout = s.dout := rfl
@[simp] theorem drawTaken_fb : (drawTaken s).fb = s.fb := rfl
@[simp] theorem drawTaken_mode : (drawTaken s).mode = s.mode := rfl
@[simp] theorem drawTaken_err : (drawTaken s).err = s.err := rfl
@[simp] theorem drawTaken_busy : (drawTaken s).busy = s.busy := rfl
@[simp] theorem drawTaken_stgcnt : (drawTaken s).stgcnt = s.stgcnt := rfl
@[simp] theorem drawTaken_lcmd : (drawTaken s).lcmd = s.lcmd := rfl
@[simp] theorem drawTaken_ldin : (drawTaken s).ldin = s.ldin := rfl
@[simp] theorem drawTaken_ovr : (drawTaken s).ovr = s.ovr := rfl
@[simp] theorem drawTaken_params : (drawTaken s).params = s.params := rfl
@[simp] theorem drawTaken_resetLine : (drawTaken s).resetLine = s.resetLine := rfl
@[simp] theorem drawTaken_turns : (drawTaken s).turns = s.turns := rfl
@[simp] theorem drawTaken_seen : (drawTaken s).seen = s.seen := rfl
@[simp] theorem drawTaken_draws : (drawTaken s).draws = s.draws + 1 := rfl

/-! ### openEncrypt -/

@[simp] theorem openEncrypt_din (iv : BitVec 64) : (openEncrypt iv s).din = s.din := rfl
@[simp] theorem openEncrypt_dout (iv : BitVec 64) : (openEncrypt iv s).dout = iv := rfl
@[simp] theorem openEncrypt_fb (iv : BitVec 64) : (openEncrypt iv s).fb = iv := rfl
@[simp] theorem openEncrypt_mode (iv : BitVec 64) : (openEncrypt iv s).mode = .enc := rfl
@[simp] theorem openEncrypt_err (iv : BitVec 64) : (openEncrypt iv s).err = errNone := rfl
@[simp] theorem openEncrypt_busy (iv : BitVec 64) : (openEncrypt iv s).busy = s.busy := rfl
@[simp] theorem openEncrypt_stgcnt (iv : BitVec 64) : (openEncrypt iv s).stgcnt = s.stgcnt := rfl
@[simp] theorem openEncrypt_lcmd (iv : BitVec 64) : (openEncrypt iv s).lcmd = s.lcmd := rfl
@[simp] theorem openEncrypt_ldin (iv : BitVec 64) : (openEncrypt iv s).ldin = s.ldin := rfl
@[simp] theorem openEncrypt_ovr (iv : BitVec 64) : (openEncrypt iv s).ovr = s.ovr := rfl
@[simp] theorem openEncrypt_params (iv : BitVec 64) : (openEncrypt iv s).params = s.params := rfl
@[simp] theorem openEncrypt_resetLine (iv : BitVec 64) : (openEncrypt iv s).resetLine = s.resetLine := rfl
@[simp] theorem openEncrypt_turns (iv : BitVec 64) : (openEncrypt iv s).turns = s.turns := rfl
@[simp] theorem openEncrypt_seen (iv : BitVec 64) : (openEncrypt iv s).seen = s.seen := rfl
@[simp] theorem openEncrypt_draws (iv : BitVec 64) : (openEncrypt iv s).draws = s.draws := rfl

/-! ### assertReset -/

@[simp] theorem assertReset_toEngine : (assertReset s).toEngine = Engine.reset := rfl
@[simp] theorem assertReset_params : (assertReset s).params = s.params := rfl
@[simp] theorem assertReset_resetLine : (assertReset s).resetLine = true := rfl
@[simp] theorem assertReset_turns : (assertReset s).turns = s.turns := rfl
@[simp] theorem assertReset_seen : (assertReset s).seen = s.seen := rfl
@[simp] theorem assertReset_draws : (assertReset s).draws = s.draws := rfl

/-! ### finish -/

@[simp] theorem finish_din : (finish s).din = s.din := by
  cases h : s.ovr <;> simp [finish, h]
@[simp] theorem finish_dout : (finish s).dout = s.dout := by
  cases h : s.ovr <;> simp [finish, h]
@[simp] theorem finish_fb : (finish s).fb = s.fb := by
  cases h : s.ovr <;> simp [finish, h]
@[simp] theorem finish_mode : (finish s).mode = if s.ovr then .idle else s.mode := by
  cases h : s.ovr <;> simp [finish, h]
@[simp] theorem finish_err : (finish s).err = if s.ovr ∧ s.err = errNone then ErrKind.overrun.code else s.err := by
  cases h : s.ovr <;> simp [finish, h]
@[simp] theorem finish_busy : (finish s).busy = false := by
  cases h : s.ovr <;> simp [finish, h]
@[simp] theorem finish_stgcnt : (finish s).stgcnt = s.stgcnt := by
  cases h : s.ovr <;> simp [finish, h]
@[simp] theorem finish_lcmd : (finish s).lcmd = s.lcmd := by
  cases h : s.ovr <;> simp [finish, h]
@[simp] theorem finish_ldin : (finish s).ldin = s.ldin := by
  cases h : s.ovr <;> simp [finish, h]
@[simp] theorem finish_ovr : (finish s).ovr = false := by
  cases h : s.ovr <;> simp [finish, h]
@[simp] theorem finish_params : (finish s).params = s.params := by
  cases h : s.ovr <;> simp [finish, h]
@[simp] theorem finish_resetLine : (finish s).resetLine = s.resetLine := by
  cases h : s.ovr <;> simp [finish, h]
@[simp] theorem finish_turns : (finish s).turns = s.turns := by
  cases h : s.ovr <;> simp [finish, h]
@[simp] theorem finish_seen : (finish s).seen = s.seen := by
  cases h : s.ovr <;> simp [finish, h]
@[simp] theorem finish_draws : (finish s).draws = s.draws := by
  cases h : s.ovr <;> simp [finish, h]

/-! ### writePort -/

@[simp] theorem writePort_dout (idx : BitVec 5) (v : BitVec 64) : (writePort idx v s).dout = s.dout := by
  unfold writePort writeCmd; split <;> (try split) <;> rfl
@[simp] theorem writePort_fb (idx : BitVec 5) (v : BitVec 64) : (writePort idx v s).fb = s.fb := by
  unfold writePort writeCmd; split <;> (try split) <;> rfl
@[simp] theorem writePort_mode (idx : BitVec 5) (v : BitVec 64) : (writePort idx v s).mode = s.mode := by
  unfold writePort writeCmd; split <;> (try split) <;> rfl
@[simp] theorem writePort_err (idx : BitVec 5) (v : BitVec 64) : (writePort idx v s).err = s.err := by
  unfold writePort writeCmd; split <;> (try split) <;> rfl
@[simp] theorem writePort_stgcnt (idx : BitVec 5) (v : BitVec 64) : (writePort idx v s).stgcnt = s.stgcnt := by
  unfold writePort writeCmd; split <;> (try split) <;> rfl
@[simp] theorem writePort_params (idx : BitVec 5) (v : BitVec 64) : (writePort idx v s).params = s.params := by
  unfold writePort writeCmd; split <;> (try split) <;> rfl
@[simp] theorem writePort_resetLine (idx : BitVec 5) (v : BitVec 64) : (writePort idx v s).resetLine = s.resetLine := by
  unfold writePort writeCmd; split <;> (try split) <;> rfl
@[simp] theorem writePort_turns (idx : BitVec 5) (v : BitVec 64) : (writePort idx v s).turns = s.turns := by
  unfold writePort writeCmd; split <;> (try split) <;> rfl
@[simp] theorem writePort_seen (idx : BitVec 5) (v : BitVec 64) : (writePort idx v s).seen = s.seen := by
  unfold writePort writeCmd; split <;> (try split) <;> rfl
@[simp] theorem writePort_draws (idx : BitVec 5) (v : BitVec 64) : (writePort idx v s).draws = s.draws := by
  unfold writePort writeCmd; split <;> (try split) <;> rfl

/-! ### What an operation does not touch, at once -/

@[simp] theorem observe_toEngine (idx : BitVec 5) : (observe idx s).toEngine = s.toEngine := rfl
@[simp] theorem releaseReset_toEngine : (releaseReset s).toEngine = s.toEngine := rfl
@[simp] theorem drawTaken_toEngine : (drawTaken s).toEngine = s.toEngine := rfl

/-! ### State.reset -/

@[simp] theorem reset_toEngine : State.reset.toEngine = Engine.reset := rfl
@[simp] theorem reset_params : State.reset.params = defaultParams := rfl
@[simp] theorem reset_resetLine : State.reset.resetLine = false := rfl
@[simp] theorem reset_turns : State.reset.turns = [] := rfl
@[simp] theorem reset_seen : State.reset.seen = [] := rfl

end Sys2Proof.Machine
end

