-- ==== Sys2Proof/Laws/Ops.lean ====
section
/-! SUPPORT. One lemma for each shared operation that says what it does, and the port by index. -/

namespace Sys2Proof.Machine

variable (s : State)

/-! ### The host port (20_memory.md R54, R55) -/

@[simp] theorem readPort_cmd (e : Engine) : readPort 0#5 e = 0#64 := rfl
@[simp] theorem readPort_status (e : Engine) : readPort 1#5 e = statusWord e := rfl
@[simp] theorem readPort_din (e : Engine) : readPort 2#5 e = e.din := rfl
@[simp] theorem readPort_dout (e : Engine) : readPort 3#5 e = e.dout := rfl
@[simp] theorem readPort_fb (e : Engine) : readPort 4#5 e = e.fb := rfl
@[simp] theorem readPort_stgcnt (e : Engine) : readPort 5#5 e = e.stgcnt.setWidth 64 := rfl

@[simp] theorem writePort_cmd (v : BitVec 64) : writePort 0#5 v s = writeCmd v s := rfl
@[simp] theorem writePort_din_idx (v : BitVec 64) : writePort 2#5 v s = { s with din := v } := rfl

/-- A write changes the state at indices 0 and 2 only. -/
theorem writePort_other {idx : BitVec 5} (v : BitVec 64) (h0 : idx ≠ 0#5) (h2 : idx ≠ 2#5) : writePort idx v s = s := by
  have h0' : idx.toNat ≠ 0 := fun h => h0 (BitVec.eq_of_toNat_eq h)
  have h2' : idx.toNat ≠ 2 := fun h => h2 (BitVec.eq_of_toNat_eq h)
  unfold writePort
  split <;> simp_all

/-- A CMD write of an idle engine is an acceptance (70_reset_and_hazards.md R234). -/
theorem writeCmd_idle {s : State} (w : BitVec 64) (h : s.busy = false) : writeCmd w s = accept w s := by
  simp [writeCmd, h]

/-- A CMD write of a busy engine is dropped (R237). -/
theorem writeCmd_busy {s : State} (w : BitVec 64) (h : s.busy = true) : writeCmd w s = { s with ovr := true } := by
  simp [writeCmd, h]

/-! ### Errors (60_exceptions.md R201, R206) -/

/-- The first error since the last clear is kept. -/
theorem recordError_first {s : State} (k : ErrKind) (h : s.err = errNone) :
    recordError k s = { s with err := k.code, mode := .idle } := by
  simp [recordError, h]

theorem recordError_later {s : State} (k : ErrKind) (h : s.err ≠ errNone) :
    recordError k s = { s with mode := .idle } := by
  simp [recordError, h]

/-- Every recorded code is one of 1 to 7. -/
theorem ErrKind.code_ne_none (k : ErrKind) : k.code ≠ errNone := by cases k <;> decide

/-- After an error ERR is not NONE. -/
theorem recordError_err_ne (k : ErrKind) : (recordError k s).err ≠ errNone := by
  by_cases h : s.err = errNone
  · simp [recordError_err, h, ErrKind.code_ne_none k]
  · simp [recordError_err, h]

/-! ### The end of Complete (R234) -/

theorem finish_of_not_ovr {s : State} (h : s.ovr = false) : finish s = { s with busy := false } := by
  simp [finish, h]

theorem finish_of_ovr {s : State} (h : s.ovr = true) :
    finish s = { recordError .overrun s with ovr := false, busy := false } := by
  simp [finish, h]

/-! ### STATUS (10_state.md R26) -/

/-- The bits of STATUS. -/
theorem statusWord_getLsbD (e : Engine) {i : Nat} (hi : i < 64) : (statusWord e).getLsbD i =
    if i < 1 then e.busy else if i - 1 < 2 then e.mode.code.getLsbD (i - 1)
    else if i - 1 - 2 < 1 then false else e.err.getLsbD (i - 1 - 2 - 1) := by
  unfold statusWord
  simp only [BitVec.getLsbD_setWidth, BitVec.getLsbD_append, hi, decide_true, Bool.true_and, BitVec.getLsbD_ofBool]
  split_ifs with h1 h2 h3
  · simp [show i = 0 by omega]
  · rfl
  · simp
  · rfl

theorem statusWord_err (e : Engine) : (statusWord e).extractLsb' 4 4 = e.err := by
  apply BitVec.eq_of_getLsbD_eq
  intro i hi
  rw [BitVec.getLsbD_extractLsb', statusWord_getLsbD _ (by omega), if_neg (by omega), if_neg (by omega),
    if_neg (by omega), show 4 + i - 1 - 2 - 1 = i by omega]
  simp [hi]

theorem statusWord_mode (e : Engine) : (statusWord e).extractLsb' 1 2 = e.mode.code := by
  apply BitVec.eq_of_getLsbD_eq
  intro i hi
  rw [BitVec.getLsbD_extractLsb', statusWord_getLsbD _ (by omega), if_neg (by omega), if_pos (by omega),
    show 1 + i - 1 = i by omega]
  simp [hi]

theorem statusWord_busy (e : Engine) : (statusWord e).getLsbD 0 = e.busy := by
  rw [statusWord_getLsbD _ (by omega)]
  simp

@[simp] theorem statusWord_bit0 (e : Engine) : (statusWord e)[0] = e.busy := statusWord_busy e

/-! ### Bus addresses (20_memory.md R53 to R56) -/

theorem busIndex_port {base addr : BitVec 64} {bytes : Nat} {idx : BitVec 5} (h : busIndex base addr bytes = .port idx) :
    addr.extractLsb' 8 56 = base.extractLsb' 8 56 ∧ bytes = 8 ∧ addr.extractLsb' 0 3 = 0#3 ∧ idx = addr.extractLsb' 3 5 := by
  unfold busIndex at h
  split at h
  · simp at h
  · split at h <;> simp_all

end Sys2Proof.Machine
end

