-- ==== Sys2Proof/Laws/Exec.lean ====
section
/-! SUPPORT. What each command can answer, one inversion for each command that has a case to distinguish; the others
have one next state, by definition. Proofs cite these and do not unfold a command. -/

namespace Sys2Proof.Machine

variable {s t : State}

theorem execNop_cases (h : exec .nop s = .next t) : t = s := by
  simpa [exec, execNop, eq_comm] using h

theorem execAbort_cases (h : exec .abort s = .next t) : t = { clearError s with mode := .idle } := by
  simpa [exec, execAbort, eq_comm] using h

theorem execPerm_cases {sel : TableSel} (h : exec (.perm sel) s = .next t) :
    t = { s with dout := permuteReg s.ldin (tableOf s.params.tables sel) } := by
  simpa [exec, execPerm, eq_comm] using h

theorem execFwd_cases {key : KeySel} (h : exec (.fwd key) s = .next t) :
    t = countStages 1 { s with dout := forward s.params.tables s.ldin (Config.key key) } := by
  simpa [exec, execFwd, eq_comm] using h

theorem execRev_cases {key : KeySel} (h : exec (.rev key) s = .next t) :
    t = countStages 1 { s with dout := reverse s.params.tables s.ldin (Config.key key) } := by
  simpa [exec, execRev, eq_comm] using h

theorem execCenc_cases (h : exec .cenc s = .next t) :
    t = countStages 3 { s with dout := cascadeEnc s.params.tables s.ldin } := by
  simpa [exec, execCenc, eq_comm] using h

theorem execCdec_cases (h : exec .cdec s = .next t) :
    t = countStages 3 { s with dout := cascadeDec s.params.tables s.ldin } := by
  simpa [exec, execCdec, eq_comm] using h

theorem execEncStart_cases {src : IvSrc} (h : exec (.encStart src) s = .next t) :
    (src = .din ∧ t = openEncrypt s.ldin s) ∨
    (src = .rng ∧ s.params.rngReady = true ∧ t = openEncrypt (drawValue s) (drawTaken s)) := by
  cases src with
  | din => exact .inl ⟨rfl, by simpa [exec, execEncStart, eq_comm] using h⟩
  | rng =>
    simp only [exec, execEncStart] at h
    split at h
    · rename_i hr
      exact .inr ⟨rfl, hr, by simpa [eq_comm] using h⟩
    · simp at h

theorem execEncBlock_cases {len : Nat} (h : exec (.encBlock len) s = .next t) :
    (s.mode ≠ .enc ∧ t = recordError .sequence s) ∨
    (s.mode = .enc ∧ t = countStages 3 { s with
      dout := cascadeEnc s.params.tables (padReg s.ldin len ^^^ s.fb)
      fb := cascadeEnc s.params.tables (padReg s.ldin len ^^^ s.fb)
      mode := if len < 8 then .encClosed else s.mode }) := by
  simp only [exec, execEncBlock] at h
  split at h
  · rename_i hm
    exact .inl ⟨hm, by simpa [eq_comm] using h⟩
  · rename_i hm
    exact .inr ⟨by simpa using hm, by simpa [eq_comm] using h⟩

theorem execDecStart_cases {len : Nat} (h : exec (.decStart len) s = .next t) :
    (len < 8 ∧ t = recordError .truncatedInput (clearError s)) ∨
    (8 ≤ len ∧ t = { clearError s with fb := s.ldin, mode := .dec }) := by
  simp only [exec, execDecStart] at h
  split at h
  · rename_i hl
    exact .inl ⟨hl, by simpa [eq_comm] using h⟩
  · rename_i hl
    exact .inr ⟨by omega, by simpa [eq_comm] using h⟩

theorem execDecBlock_cases {len : Nat} (h : exec (.decBlock len) s = .next t) :
    (s.mode ≠ .dec ∧ t = recordError .sequence s) ∨
    (s.mode = .dec ∧ len < 8 ∧ t = recordError .lengthMismatch s) ∨
    (s.mode = .dec ∧ 8 ≤ len ∧
      t = countStages 3 { s with dout := cascadeDec s.params.tables s.ldin ^^^ s.fb, fb := s.ldin }) := by
  simp only [exec, execDecBlock] at h
  split at h
  · rename_i hm
    exact .inl ⟨hm, by simpa [eq_comm] using h⟩
  · rename_i hm
    split at h
    · rename_i hl
      exact .inr (.inl ⟨by simpa using hm, hl, by simpa [eq_comm] using h⟩)
    · rename_i hl
      exact .inr (.inr ⟨by simpa using hm, by omega, by simpa [eq_comm] using h⟩)

/-- The same outcome seen from a state with another DIN, other moves to come and other reads. -/
def reframe (d : BitVec 64) (turns : List Turn) (seen : List ReadValue) : Result → Result
  | .next t => .next { t with din := d, turns := turns, seen := seen }
  | .fault why => .fault why
  | .refused why => .refused why

/-- A command reads neither DIN (it reads LDIN, 70_reset_and_hazards.md R236) nor the moves to come nor what the host
has read, and keeps them. -/
theorem exec_reframe (i : Instr) (s : State) (d : BitVec 64) (turns : List Turn) (seen : List ReadValue) :
    exec i { s with din := d, turns := turns, seen := seen } = reframe d turns seen (exec i s) := by
  cases i with
  | encStart src =>
    cases src with
    | din => rfl
    | rng => cases h : s.params.rngReady <;> simp [exec, execEncStart, h] <;> rfl
  | encBlock len => by_cases h : s.mode = .enc <;> simp [exec, execEncBlock, h] <;> rfl
  | decStart len => by_cases h : len < 8 <;> simp [exec, execDecStart, h] <;> rfl
  | decBlock len => by_cases h : s.mode = .dec <;> by_cases h8 : len < 8 <;> simp [exec, execDecBlock, h, h8] <;> rfl
  | nop => rfl
  | abort => rfl
  | perm sel => rfl
  | fwd key => rfl
  | rev key => rfl
  | cenc => rfl
  | cdec => rfl

/-- No command is refused. -/
theorem exec_ne_refused (i : Instr) (s : State) (why : Refusal) : exec i s ≠ .refused why := by
  cases i <;>
    simp only [exec, execNop, execEncStart, execEncBlock, execDecStart, execDecBlock, execAbort, execPerm, execFwd,
      execRev, execCenc, execCdec, ne_eq] <;>
    (repeat' split) <;> simp

/-- The only command that can be stuck is `enc.start rng`, and only where the random source never answers (I12). -/
theorem exec_fault {i : Instr} {why : Fault} (h : exec i s = .fault why) :
    i = .encStart .rng ∧ s.params.rngReady = false := by
  cases i <;>
    simp only [exec, execNop, execEncStart, execEncBlock, execDecStart, execDecBlock, execAbort, execPerm, execFwd,
      execRev, execCenc, execCdec] at h <;>
    (repeat' split at h) <;> simp_all

end Sys2Proof.Machine
end

