-- ==== Sys2Proof/Machine/HostProgram.lean ====
section
/-! DEFINITION. Host programs: the lines of 30_encoding.md R80 and R81, their text, the port transactions they stand
for, and the two drivers of 42_chaining.md R153 and R154. A program is laid out as the moves to come, with the
engine's own move where its latency puts it (70_reset_and_hazards.md R235). -/

namespace Sys2Proof.Machine

/-- The registers a line can name (R80). -/
inductive PortReg where
  | cmd
  | status
  | din
  | dout
  | fb
  | stgcnt
  deriving DecidableEq, Repr

/-- Port indices (20_memory.md R54). -/
def PortReg.idx : PortReg → BitVec 5
  | .cmd => 0#5
  | .status => 1#5
  | .din => 2#5
  | .dout => 3#5
  | .fb => 4#5
  | .stgcnt => 5#5

/-- The `<command>` forms of R80. -/
inductive Command where
  | instr (i : Instr)
  /-- `.word <imm64>`: the raw word, which may be illegal. -/
  | word (w : BitVec 64)
  deriving DecidableEq, Repr

/-- The word a command form is written as (R80). -/
def Command.toWord : Command → BitVec 64
  | .instr i => encode i
  | .word w => w

/-- A line of a host program (R80, R81). -/
inductive Line where
  | wr (r : PortReg) (v : BitVec 64)
  | rd (r : PortReg)
  | cmd (c : Command)
  | poll
  | issue (c : Command)
  | ld (bytes : List Byte)
  deriving DecidableEq, Repr

/-- `poll` (R81): `rd STATUS` until BUSY reads 0, however often that is. The engine's next move comes after `lat` reads
that see BUSY = 1 (70_reset_and_hazards.md R235). -/
def pollTurns : Nat → List Turn
  | 0 => [.engine, .poll 0]
  | n + 1 => [.poll n]

/-- The moves a line stands for (R80, R81), where the engine moves after a poll has seen BUSY = 1 `lat` times. -/
def Line.turns (lat : Nat) : Line → List Turn
  | .wr r v => [.write r.idx v]
  | .rd r => [.read r.idx]
  | .cmd c => [.write PortReg.cmd.idx c.toWord]
  | .poll => pollTurns lat
  | .issue c => .write PortReg.cmd.idx c.toWord :: pollTurns lat
  | .ld bytes => [.write PortReg.din.idx (pack bytes)]

/-- The moves of a program, each line with its own latency (R235: it may differ from command to command). DESIGN CHOICE
(notes/assumptions/14.md, unsafe for programs that do not poll): only a poll's latency is used, so a command that no
poll follows completes when the list is used up, never between two later lines that are no poll; the other schedules
are lists of moves that this layout does not give. -/
def programTurns : List (Line × Nat) → List Turn
  | [] => []
  | (line, lat) :: rest => line.turns lat ++ programTurns rest

/-- The lines of EncDriver for one slice (R153). -/
def encSliceLines (s : List Byte) : List Line := [.ld s, .issue (.instr (.encBlock s.length)), .rd .dout]

/-- `EncDriver(p, src[, v])` (R153); `iv` is written first when the IV is given. -/
def encDriver (src : IvSrc) (iv : BitVec 64) (p : List Byte) : List Line :=
  (match src with
    | .din => [.wr .din iv]
    | .rng => []) ++
  [.issue (.instr (.encStart src)), .rd .dout] ++ (slices p).flatMap encSliceLines ++ [.rd .status]

/-- The lines of DecDriver for one slice (R154). -/
def decSliceLines (c : List Byte) : List Line :=
  [.ld c, .issue (.instr (.decBlock c.length))] ++ (if c.length = 8 then [.rd .dout] else [])

/-- `DecDriver(s)` (R154). -/
def decDriver (s : List Byte) : List Line :=
  let k := min s.length 8
  (if 0 < k then [.ld (s.take k)] else []) ++ [.issue (.instr (.decStart k))] ++
    (if k = 8 then (slices (s.drop 8)).flatMap decSliceLines else []) ++ [.rd .status]

/-- The bytes a host collects: those of its DOUT reads, in order (20_memory.md R63). DESIGN CHOICE
(notes/assumptions/16.md, unsafe for a host that reads a block twice or reads a component command's DOUT): every DOUT
read counts, a repeated one and one that shows no block of the stream included. -/
def collected (reads : List ReadValue) : List Byte :=
  (reads.filter fun r => r.idx == PortReg.dout.idx).flatMap fun r => unpack r.value

/-- The last STATUS value a host has read (70_reset_and_hazards.md R243). -/
def lastStatus (reads : List ReadValue) : Option (BitVec 64) :=
  ((reads.filter fun r => r.idx == PortReg.status.idx).getLast?).map fun r => r.value

/-- `kind(ERR)` of R154 for the codes the source has (60_exceptions.md R203); the other codes are the hardware's. -/
def sourceKind (code : BitVec 4) : Option MsgError :=
  match code.toNat with
  | 1 => some .invalidBlockOrKeySize
  | 2 => some .insufficientInputLength
  | 3 => some .lengthMismatch
  | 4 => some .truncatedInput
  | _ => none

/-- What a host reports of a run (60_exceptions.md R208; 70_reset_and_hazards.md R243). -/
inductive Report where
  /-- It has read no STATUS, so it knows of no outcome. -/
  | noStatus
  /-- The last STATUS read shows ERR = NONE: the bytes it collected. -/
  | success (bytes : List Byte)
  /-- The last STATUS read shows an error: its code, every byte discarded. -/
  | failure (code : BitVec 4)
  deriving DecidableEq, Repr

/-- The host's report from the values its reads returned, taken as one session's (R208, R243). DESIGN CHOICE
(notes/assumptions/15.md, unsafe for reads of several sessions): the last STATUS read decides for every byte of the
list, and a success reports every DOUT read of it, an earlier failed session's blocks included. -/
def report (reads : List ReadValue) : Report :=
  match lastStatus reads with
  | none => .noStatus
  | some v => if statusErr v = errNone then .success (collected reads) else .failure (statusErr v)

/-- A run's outcome is a failure: the last STATUS read shows ERR ≠ NONE (R243). -/
def runFails (reads : List ReadValue) : Bool :=
  match report reads with
  | .failure _ => true
  | .success _ => false
  | .noStatus => false

/-- The result of the decrypt driver (R154): the report in the source's terms. None where the host has read no STATUS
or the code, one of the hardware's own (60_exceptions.md R202), has no source kind. -/
def driverResult (reads : List ReadValue) : Option MsgResult :=
  match report reads with
  | .noStatus => none
  | .success bytes => some (.ok bytes)
  | .failure code => (sourceKind code).map Except.error

/-- The text of a command (R80). -/
def commandText : Instr → String
  | .nop => "nop"
  | .encStart .rng => "enc.start rng"
  | .encStart .din => "enc.start din"
  | .encBlock len => "enc.block " ++ toString len
  | .decStart len => "dec.start " ++ toString len
  | .decBlock len => "dec.block " ++ toString len
  | .abort => "abort"
  | .perm .ip => "perm ip"
  | .perm .ipinv => "perm ipinv"
  | .fwd .k1 => "fwd k1"
  | .fwd .k2 => "fwd k2"
  | .fwd .k3 => "fwd k3"
  | .rev .k1 => "rev k1"
  | .rev .k2 => "rev k2"
  | .rev .k3 => "rev k3"
  | .cenc => "cenc"
  | .cdec => "cdec"

/-- The words of a line: separated by blanks and commas, a comment from `;` on left out (R80). `acc` is the word being
read, last character first. -/
def lineWords (acc : List Char) : List Char → List (List Char)
  | [] => if acc.isEmpty then [] else [acc.reverse]
  | c :: rest =>
    if c = ';' then (if acc.isEmpty then [] else [acc.reverse])
    else if c = ' ' ∨ c = ',' then
      (if acc.isEmpty then lineWords [] rest else acc.reverse :: lineWords [] rest)
    else lineWords (c :: acc) rest

/-- The value of a hexadecimal digit (R80). -/
def hexDigit (c : Char) : Option Nat :=
  if '0'.toNat ≤ c.toNat ∧ c.toNat ≤ '9'.toNat then some (c.toNat - '0'.toNat)
  else if 'A'.toNat ≤ c.toNat ∧ c.toNat ≤ 'F'.toNat then some (c.toNat - 'A'.toNat + 10)
  else if 'a'.toNat ≤ c.toNat ∧ c.toNat ≤ 'f'.toNat then some (c.toNat - 'a'.toNat + 10)
  else none

/-- The value of a digit sequence after `value`. -/
def hexDigits (value : Nat) : List Char → Option Nat
  | [] => some value
  | c :: rest => (hexDigit c).bind fun d => hexDigits (16 * value + d) rest

/-- `<imm64>`: `0x` and 1 to 16 hexadecimal digits (R80). -/
def parseImm : List Char → Option (BitVec 64)
  | '0' :: 'x' :: digits =>
    if 1 ≤ digits.length ∧ digits.length ≤ 16 then (hexDigits 0 digits).map (BitVec.ofNat 64) else none
  | _ => none

/-- A byte of `ld`: one or two hexadecimal digits (R81). -/
def parseByte (digits : List Char) : Option Byte :=
  if 1 ≤ digits.length ∧ digits.length ≤ 2 then (hexDigits 0 digits).map (BitVec.ofNat 8) else none

/-- The bytes of `ld`, 1 to 8 of them (R81). -/
def parseBytes (words : List (List Char)) : Option (List Byte) :=
  if 1 ≤ words.length ∧ words.length ≤ 8 then words.mapM parseByte else none

/-- A register's name (R80). -/
def parseReg (name : List Char) : Option PortReg :=
  [("CMD", PortReg.cmd), ("STATUS", .status), ("DIN", .din), ("DOUT", .dout), ("FB", .fb), ("STGCNT", .stgcnt)].findSome?
    fun entry => if entry.1.toList = name then some entry.2 else none

/-- Every command with a word (30_encoding.md R76). -/
def legalCommands : List Instr :=
  [.nop, .encStart .rng, .encStart .din] ++ (List.range 8).map (fun n => .encBlock (n + 1)) ++
    (List.range 9).map .decStart ++ (List.range 8).map (fun n => .decBlock (n + 1)) ++
    [.abort, .perm .ip, .perm .ipinv, .fwd .k1, .fwd .k2, .fwd .k3, .rev .k1, .rev .k2, .rev .k3, .cenc, .cdec]

/-- A `<command>` from its words: the forms of R80, and the forms of R81 without a count. -/
def parseCommand (words : List (List Char)) : Option Command :=
  match words with
  | [dir, imm] =>
    if dir = ".word".toList then (parseImm imm).map .word
    else (legalCommands.find? fun i => lineWords [] (commandText i).toList == words).map .instr
  | [name] =>
    if name = "enc.block".toList then some (.instr (.encBlock 8))
    else if name = "dec.block".toList then some (.instr (.decBlock 8))
    else if name = "dec.start".toList then some (.instr (.decStart 8))
    else (legalCommands.find? fun i => lineWords [] (commandText i).toList == words).map .instr
  | _ => none

/-- A line from its words (R80, R81). -/
def parseWords (words : List (List Char)) : Option Line :=
  match words with
  | [] => none
  | head :: rest =>
    if head = "cmd".toList then (parseCommand rest).map .cmd
    else if head = "issue".toList then (parseCommand rest).map .issue
    else if head = "ld".toList then (parseBytes rest).map .ld
    else
      match rest with
      | [] => if head = "poll".toList then some .poll else none
      | [r] => if head = "rd".toList then (parseReg r).map .rd else none
      | [r, imm] =>
        if head = "wr".toList then (parseReg r).bind fun reg => (parseImm imm).map (Line.wr reg) else none
      | _ => none

/-- A line of program text (R80, R81); none where the text is no line. -/
def parseLine (text : String) : Option Line := parseWords (lineWords [] text.toList)

end Sys2Proof.Machine
end

