-- ==== Sys2Proof/Safety.lean ====
section
/-! DEFINITION. What a safe run is: the invariant every step keeps, the host's duties, and runs of a host program. -/

namespace Sys2Proof.Machine

/-- ERR ≠ NONE implies MODE = IDLE (60_exceptions.md R217). -/
abbrev ErrorClosesSession (e : Engine) : Prop := e.err ≠ errNone → e.mode = .idle

/-- The codes that are ever produced: NONE and 3 to 7 (R29, R202; 93_implementation_defined.md I9). -/
abbrev ErrorProduced (e : Engine) : Prop := e.err = 0#4 ∨ (3 ≤ e.err.toNat ∧ e.err.toNat ≤ 7)

/-- OVR is set only while a command runs (10_state.md R31, 70_reset_and_hazards.md R237). -/
abbrev OverrunOnlyBusy (e : Engine) : Prop := e.ovr = true → e.busy = true

/-- While reset is asserted the registers hold their reset values (R230, R232). -/
abbrev ResetHolds (s : State) : Prop := s.resetLine = true → s.toEngine = Engine.reset

/-- The invariant of the machine: what holds of every state a run can reach. -/
structure Inv (s : State) : Prop where
  errorClosesSession : ErrorClosesSession s.toEngine
  errorProduced : ErrorProduced s.toEngine
  overrunOnlyBusy : OverrunOnlyBusy s.toEngine
  resetHolds : ResetHolds s
  tablesOk : s.params.tables.ok = true

/-- The engine as the atomic abstraction leaves it after a CMD write (70_reset_and_hazards.md R241): Accept and
Complete in one. -/
def atomicCommand (w : BitVec 64) (s : State) : Result := complete (accept w s)

/-- `n` steps from `s`. -/
def runSteps (n : Nat) (s : State) : Result := Host.Core.run Sys2Proof.core n s

/-- A host at rest: no command running, none dropped, reset released (the start R155 asks for). -/
abbrev AtRest (s : State) : Prop := s.busy = false ∧ s.ovr = false ∧ s.resetLine = false

/-- The run is over: the host has made its last move and no command is running (70_reset_and_hazards.md R243). -/
abbrev RunOver (s : State) : Prop := s.turns = [] ∧ s.busy = false

/-- The run of a host program from `s`, its moves and nothing else, laid out by `programTurns` (notes/assumptions/14.md),
ends in `t` (R243; 42_chaining.md R155). A program
whose run never ends, such as one that polls a silent random source, has no such `t`. -/
def RunEnds (program : List (Line × Nat)) (s t : State) : Prop :=
  ∃ n, runSteps n { s with turns := programTurns program } = .next t ∧ RunOver t

/-- What a run observes (R243): the values its reads returned, and the final state. -/
structure Observation where
  reads : List ReadValue
  final : Engine
  deriving DecidableEq, Repr

/-- What the run from `s` to `t` observes. -/
def observation (s t : State) : Observation := { reads := t.seen.drop s.seen.length, final := t.toEngine }

end Sys2Proof.Machine
end

