-- ==== Sys2Proof/Laws/Step.lean ====
section
/-! SUPPORT. What one step can do: the moves one by one, and the inversion of each. -/

namespace Sys2Proof.Machine

/-! ### One move -/

theorem step_noTurn {s : State} (h : s.turns = []) : step s = engineMove s := by simp [step, nextMove, h]

theorem step_turn {s : State} {turn : Turn} {rest : List Turn} (h : s.turns = turn :: rest) :
    step s = takeTurn turn { s with turns := rest } := by simp [step, nextMove, h]

theorem engineMove_busy {s : State} (h : s.busy = true) : engineMove s = complete s := by simp [engineMove, h]

theorem engineMove_idle {s : State} (h : s.busy = false) : engineMove s = .next s := by simp [engineMove, h]

theorem execWord_instr {w : BitVec 64} {i : Instr} (s : State) (h : decode w = .instr i) : execWord w s = exec i s := by
  simp [execWord, h]

theorem execWord_illegal {w : BitVec 64} {why : Illegal} (s : State) (h : decode w = .illegal why) :
    execWord w s = .next (recordError .illegalCmd s) := by simp [execWord, h]

theorem complete_next {s t : State} (h : execWord s.lcmd s = .next t) : complete s = .next (finish t) := by
  simp [complete, h]

/-- What Complete answers, if it answers a next state: the command's result with its end, or, where the draw is never
answered, the waiting state itself. -/
theorem complete_cases {s u : State} (h : complete s = .next u) :
    (∃ t, execWord s.lcmd s = .next t ∧ u = finish t) ∨ (execWord s.lcmd s = .fault .drawUnanswered ∧ u = s) := by
  unfold complete at h
  split at h
  · rename_i t ht
    exact .inl ⟨t, ht, by simpa using h.symm⟩
  · rename_i ht
    exact .inr ⟨ht, by simpa using h.symm⟩
  · simp at h

/-- Complete always answers a next state. -/
theorem complete_total (s : State) : ∃ u, complete s = .next u := by
  unfold complete
  split
  · exact ⟨_, rfl⟩
  · exact ⟨_, rfl⟩
  · rename_i why h
    exfalso
    unfold execWord at h
    split at h
    · exact exec_ne_refused _ _ _ h
    · simp at h

/-- What a transaction answers. -/
theorem transact_cases {s t u : State} (h : transact s t = .next u) : s.resetLine = false ∧ u = t := by
  unfold transact at h
  split at h
  · simp at h
  · rename_i hr
    exact ⟨by simpa using hr, by simpa using h.symm⟩

theorem transact_next {s : State} (t : State) (h : s.resetLine = false) : transact s t = .next t := by
  simp [transact, h]

/-- What an agent's move answers, if it answers a next state. -/
theorem takeTurn_cases {turn : Turn} {s u : State} (h : takeTurn turn s = .next u) :
    (turn = .engine ∧ engineMove s = .next u) ∨
    (s.resetLine = false ∧ ∃ idx turns, u = observe idx { s with turns := turns }) ∨
    (s.resetLine = false ∧ ∃ idx v, u = writePort idx v s) ∨
    (turn = .assertReset ∧ u = assertReset s) ∨
    (turn = .releaseReset ∧ u = releaseReset s) := by
  cases turn with
  | engine => exact .inl ⟨rfl, h⟩
  | read idx =>
    obtain ⟨hr, rfl⟩ := transact_cases h
    exact .inr (.inl ⟨hr, idx, s.turns, rfl⟩)
  | write idx v =>
    obtain ⟨hr, rfl⟩ := transact_cases h
    exact .inr (.inr (.inl ⟨hr, idx, v, rfl⟩))
  | busRead addr bytes =>
    simp only [takeTurn] at h
    split at h
    · rename_i idx _
      obtain ⟨hr, rfl⟩ := transact_cases h
      exact .inr (.inl ⟨hr, idx, s.turns, rfl⟩)
    · simp at h
  | busWrite addr bytes v =>
    simp only [takeTurn] at h
    split at h
    · rename_i idx _
      obtain ⟨hr, rfl⟩ := transact_cases h
      exact .inr (.inr (.inl ⟨hr, idx, v, rfl⟩))
    · simp at h
  | poll lat =>
    obtain ⟨hr, rfl⟩ := transact_cases h
    exact .inr (.inl ⟨hr, 1#5, pollNext lat s, rfl⟩)
  | assertReset => exact .inr (.inr (.inr (.inl ⟨rfl, by simpa [takeTurn] using h.symm⟩)))
  | releaseReset => exact .inr (.inr (.inr (.inr ⟨rfl, by simpa [takeTurn] using h.symm⟩)))

/-- What one step answers, if it answers a next state: some state `s'` that differs from `s` in the moves to come
alone makes one agent's move. -/
theorem step_cases {s u : State} (h : step s = .next u) :
    ∃ rest, let s' := { s with turns := rest }
      engineMove s' = .next u ∨
      (s.resetLine = false ∧ ∃ idx, u = observe idx s') ∨
      (s.resetLine = false ∧ ∃ idx v, u = writePort idx v s') ∨
      u = assertReset s' ∨ u = releaseReset s' := by
  unfold step nextMove at h
  split at h
  · rename_i hn
    exact ⟨[], .inl (by rw [← hn]; exact h)⟩
  · rename_i turn rest _
    rcases takeTurn_cases h with ⟨-, h⟩ | ⟨hr, idx, turns, hx⟩ | ⟨hr, hx⟩ | ⟨-, h⟩ | ⟨-, h⟩
    · exact ⟨rest, .inl h⟩
    · exact ⟨turns, .inr (.inl ⟨hr, idx, hx⟩)⟩
    · exact ⟨rest, .inr (.inr (.inl ⟨hr, hx⟩))⟩
    · exact ⟨rest, .inr (.inr (.inr (.inl h)))⟩
    · exact ⟨rest, .inr (.inr (.inr (.inr h)))⟩

/-- A poll that reads BUSY = 0 is over (30_encoding.md R81). -/
theorem pollRead_idle {s : State} (lat : Nat) (h : s.busy = false) : pollRead lat s = observe 1#5 s := by
  simp [pollRead, pollNext, statusBusy, h]

/-- A poll that reads BUSY = 1 goes on, the engine's move first if its turn has come. -/
theorem pollRead_zero {s : State} (h : s.busy = true) :
    pollRead 0 s = observe 1#5 { s with turns := .engine :: .poll 0 :: s.turns } := by
  simp [pollRead, pollNext, statusBusy, h]

theorem pollRead_succ {s : State} (n : Nat) (h : s.busy = true) :
    pollRead (n + 1) s = observe 1#5 { s with turns := .poll n :: s.turns } := by
  simp [pollRead, pollNext, statusBusy, h]

/-- A poll's read changes no register. -/
@[simp] theorem pollRead_toEngine (lat : Nat) (s : State) : (pollRead lat s).toEngine = s.toEngine := rfl

/-! ### Runs -/

@[simp] theorem runSteps_zero (s : State) : runSteps 0 s = .next s := rfl

/-- A run is its first step and the rest. -/
theorem runSteps_succ (n : Nat) {s t : State} (h : step s = .next t) : runSteps (n + 1) s = runSteps n t := by
  show Host.Core.run Sys2Proof.core (n + 1) s = _
  have : Sys2Proof.core.step s = .next t := h
  simp only [Host.Core.run, this]
  rfl

/-- Two runs, one after the other. -/
theorem runSteps_add (m n : Nat) : ∀ {s t : State}, runSteps m s = .next t → runSteps (m + n) s = runSteps n t := by
  induction m with
  | zero =>
    intro s t h
    simp only [runSteps_zero, Host.Outcome.next.injEq] at h
    subst h
    simp
  | succ m ih =>
    intro s t h
    cases hs : step s with
    | next u =>
      rw [runSteps_succ m hs] at h
      rw [show m + 1 + n = m + n + 1 by omega, runSteps_succ _ hs]
      exact ih h
    | fault r =>
      have hc : Sys2Proof.core.step s = .fault r := hs
      have h' : Host.Core.run Sys2Proof.core (m + 1) s = .next t := h
      simp [Host.Core.run, hc] at h'
    | refused r =>
      have hc : Sys2Proof.core.step s = .refused r := hs
      have h' : Host.Core.run Sys2Proof.core (m + 1) s = .next t := h
      simp [Host.Core.run, hc] at h'

end Sys2Proof.Machine
end

