-- ==== Sys2Proof/Certificates/Slice0/Obligations.lean ====
section
/-! DEFINITION. What is to be proved of the engine. A statement about one command quantifies over every state and gives
the whole next state, so its frame is said with it: every field that the equation does not name keeps its value. The
engine has no memory and no program counter (20_memory.md R50, 10_state.md R25), so a frame has nothing to say of
either. The tables are the state's own parameters: "tables.ok" is the constraints (a) to (c) of 40_permutation.md
R103. -/

open Sys2Proof Sys2Proof.Machine

/-! ### Encoding (30_encoding.md) -/

/-- The encoder loses nothing: every well-formed command is read back from its word (R76, R77, R80). -/
def Obligations.DecodeOfEncodeIsTheCommand : Prop :=
  ∀ i : Instr, i.wf = true → decode (encode i) = .instr i

/-- Every legal word has one meaning and every word decoded is the encoding of what it decodes to (R76, R77). -/
def Obligations.EncodeOfDecodeIsTheWord : Prop :=
  ∀ (w : BitVec 64) (i : Instr), decode w = .instr i → i.wf = true ∧ encode i = w

/-- Decoding agrees with the table of masks and matches (R76): a word is a command exactly where a row accepts it, and
then the row is the command's and no other accepts it. -/
def Obligations.DecoderAgreesWithOpcodeTable : Prop :=
  ∀ w : BitVec 64,
    ((∃ i, decode w = .instr i) ↔ ∃ r ∈ opcodeTable, r.accepts w = true) ∧
    ∀ i, decode w = .instr i → i.row.accepts w = true ∧ ∀ r ∈ opcodeTable, r.accepts w = true → r = i.row

/-- Words of 95_test_vectors.md section 2.1, one or more of each command, and words that are no command. -/
def Obligations.ListedWordsDecodeAsListed : Prop :=
  decode 0x0#64 = .instr .nop ∧ decode 0x1#64 = .instr (.encStart .rng) ∧ decode 0x101#64 = .instr (.encStart .din) ∧
  decode 0x12#64 = .instr (.encBlock 1) ∧ decode 0x82#64 = .instr (.encBlock 8) ∧
  decode 0x3#64 = .instr (.decStart 0) ∧ decode 0x83#64 = .instr (.decStart 8) ∧
  decode 0x54#64 = .instr (.decBlock 5) ∧ decode 0x84#64 = .instr (.decBlock 8) ∧
  decode 0x5#64 = .instr .abort ∧ decode 0x6#64 = .instr (.perm .ip) ∧ decode 0x106#64 = .instr (.perm .ipinv) ∧
  decode 0x107#64 = .instr (.fwd .k1) ∧ decode 0x207#64 = .instr (.fwd .k2) ∧ decode 0x307#64 = .instr (.fwd .k3) ∧
  decode 0x308#64 = .instr (.rev .k3) ∧ decode 0x9#64 = .instr .cenc ∧ decode 0xA#64 = .instr .cdec ∧
  ∀ w ∈ [0x201#64, 0x11#64, 0x2#64, 0x92#64, 0x93#64, 0xF3#64, 0x4#64, 0x15#64, 0x206#64, 0x306#64, 0x7#64, 0x8#64,
      0xB#64, 0xF#64, 0x400#64, 0x8000000000000000#64, 0x8000000000000082#64],
    ∃ why, decode w = .illegal why

/-- R78: an illegal word records ILLEGAL_CMD (code 5) and does nothing else; the illegal words are OP 11 to 15, any RSV
bit set, and LEN or SEL outside the ranges of the table, and no others; a short DEC_START or DEC_BLOCK is legal. -/
def Obligations.IllegalWordOnlyRecordsIllegalCmd : Prop :=
  (∀ (s : State) (rest : List Turn) (why : Illegal),
    s.turns = .engine :: rest → s.busy = true → s.ovr = false → decode s.lcmd = .illegal why →
    step s = .next { s with
      turns := rest, busy := false, err := if s.err = 0#4 then 5#4 else s.err, mode := .idle }) ∧
  (∀ w : BitVec 64, (∃ why, decode w = .illegal why) ↔
    (11 ≤ (opField w).toNat ∨ rsvField w ≠ 0#54 ∨ ∀ r ∈ opcodeTable, r.accepts w = false)) ∧
  (∀ n, n ≤ 7 → decode (BitVec.ofNat 64 (3 + 16 * n)) = .instr (.decStart n)) ∧
  (∀ n, 1 ≤ n → n ≤ 7 → decode (BitVec.ofNat 64 (4 + 16 * n)) = .instr (.decBlock n))

/-! ### The control commands (43_control.md) -/

/-- R180: NOP has the word 0 and leaves everything unchanged; from a host at rest its write and completion latch the
word and DIN and leave every other register as it was, BUSY included; while BUSY = 1 its write is dropped; any other
word with OP = 0 records ILLEGAL_CMD. -/
def Obligations.NopDoesNothing : Prop :=
  decode 0x0#64 = .instr .nop ∧
  (∀ s : State, exec .nop s = .next s) ∧
  (∀ (s : State) (rest : List Turn), AtRest s →
    runSteps 2 { s with turns := .write 0#5 0x0#64 :: .engine :: rest } =
      .next { s with turns := rest, lcmd := 0x0#64, ldin := s.din }) ∧
  (∀ s : State, s.busy = true → writePort 0#5 0x0#64 s = { s with ovr := true }) ∧
  ∀ (w : BitVec 64) (s : State), opField w = 0#4 → w ≠ 0x0#64 →
    execWord w s = .next { s with err := if s.err = 0#4 then 5#4 else s.err, mode := .idle }

/-- R181: ABORT has the word 5 and writes ERR and MODE alone; from IDLE without an error it changes nothing; after it the
block commands record SEQUENCE; any other word with OP = 5 records ILLEGAL_CMD. -/
def Obligations.AbortClearsErrAndCloses : Prop :=
  decode 0x5#64 = .instr .abort ∧
  (∀ s : State, exec .abort s = .next { s with err := 0#4, mode := .idle }) ∧
  (∀ s : State, s.mode = .idle → s.err = 0#4 → exec .abort s = .next s) ∧
  (∀ (s t : State) (len : Nat), exec .abort s = .next t →
    exec (.encBlock len) t = .next { t with err := 6#4 } ∧ exec (.decBlock len) t = .next { t with err := 6#4 }) ∧
  ∀ (w : BitVec 64) (s : State), opField w = 5#4 → w ≠ 0x5#64 →
    execWord w s = .next { s with err := if s.err = 0#4 then 5#4 else s.err, mode := .idle }

/-! ### The permutation (40_permutation.md) -/

/-- PermuteReg on a block is Permute on its eight bytes, it never fails, and bit by bit `r[63 - i] = v[64 - T[i]]`: the
spec's own inference ("this is the same as", R102). -/
def Obligations.PermuteRegIsPermuteOnBytes : Prop :=
  ∀ (v : BitVec 64) (table : List Nat), table.length = 64 → (∀ e ∈ table, 1 ≤ e ∧ e ≤ 64) →
    permute (unpack v) table = .ok (unpack (permuteReg v table)) ∧
    ∀ i, i < 64 → (permuteReg v table).getLsbD (63 - i) = v.getLsbD (64 - table.getD i 0)

/-- R104: PERM writes DOUT, with DIN as latched permuted by the table that SEL names, in any MODE, and nothing else; a
block of zeros and a block of ones are kept; `perm ip` and then `perm ipinv` on its result give the block back; its
words; any other word with OP = 6 records ILLEGAL_CMD. -/
def Obligations.PermWritesThePermutedBlock : Prop :=
  (decode 0x6#64 = .instr (.perm .ip) ∧ decode 0x106#64 = .instr (.perm .ipinv)) ∧
  (∀ (s : State) (sel : TableSel), s.params.tables.ok = true →
    ∃ r : BitVec 64, exec (.perm sel) s = .next { s with dout := r } ∧
      (∀ i, i < 64 → r.getLsbD (63 - i) =
        s.ldin.getLsbD (64 - (match sel with | .ip => s.params.tables.ip | .ipinv => s.params.tables.ipinv).getD i 0)) ∧
      (s.ldin = 0#64 → r = 0#64) ∧ (s.ldin = 0xFFFFFFFFFFFFFFFF#64 → r = 0xFFFFFFFFFFFFFFFF#64)) ∧
  (∀ s t : State, s.params.tables.ok = true → exec (.perm .ip) s = .next t →
    exec (.perm .ipinv) { t with ldin := t.dout } = .next { t with ldin := t.dout, dout := s.ldin }) ∧
  ∀ (w : BitVec 64) (s : State), opField w = 6#4 → w ≠ 0x6#64 → w ≠ 0x106#64 →
    execWord w s = .next { s with err := if s.err = 0#4 then 5#4 else s.err, mode := .idle }

/-! ### The single stage and the cascade (41_stage_cascade.md) -/

/-- The single stage is the identity, in both directions, for every key and every pair of tables that meets the
constraints: the spec's own inference ("For every block `b` and every key `k`", R122). -/
def Obligations.SingleStageIsIdentity : Prop :=
  ∀ (t : Tables) (b k : BitVec 64), t.ok = true → forward t b k = b ∧ reverse t b k = b

/-- The source's stage on bytes: the identity on an 8-byte block with an 8-byte key, else InvalidBlockOrKeySize
(R120 to R123). -/
def Obligations.SourceStageIsIdentityOrSizeError : Prop :=
  ∀ (t : Tables) (b k : List Byte), t.ok = true →
    (b.length = 8 → k.length = 8 → forwardBytes t b k = .ok b ∧ reverseBytes t b k = .ok b) ∧
    (b.length ≠ 8 ∨ k.length ≠ 8 →
      forwardBytes t b k = .error .invalidBlockOrKeySize ∧ reverseBytes t b k = .error .invalidBlockOrKeySize)

/-- The cascade is three single stages in the key order of R124 and R125, and, by the spec's own inference ("For every
`b`, `CascadeEnc(b) = b`", R126), the identity; so a block command's output is its padded operand XOR the feedback
value. -/
def Obligations.CascadeIsIdentity : Prop :=
  (∀ (t : Tables) (b : BitVec 64),
    cascadeEnc t b = forward t (forward t (forward t b (Config.key .k1)) (Config.key .k2)) (Config.key .k3) ∧
    cascadeDec t b = reverse t (reverse t (reverse t b (Config.key .k3)) (Config.key .k2)) (Config.key .k1) ∧
    (t.ok = true → cascadeEnc t b = b ∧ cascadeDec t b = b)) ∧
  (∀ (s : State) (len : Nat), s.params.tables.ok = true → s.mode = .enc → 1 ≤ len → len ≤ 8 →
    ∃ t, exec (.encBlock len) s = .next t ∧
      t.dout = (s.ldin &&& (0xFFFFFFFFFFFFFFFF#64 <<< (64 - 8 * len))) ^^^ s.fb ∧ t.fb = t.dout) ∧
  ∀ s : State, s.params.tables.ok = true → s.mode = .dec →
    ∃ t, exec (.decBlock 8) s = .next t ∧ t.dout = s.ldin ^^^ s.fb ∧ t.fb = s.ldin

/-- R127 and R128: FWD and REV, with each of the three keys and in any MODE, put DIN as latched into DOUT and count one
stage modulo 2^32, and write nothing else; their words; any other word with OP 7 or 8 records ILLEGAL_CMD. -/
def Obligations.FwdRevReturnTheBlock : Prop :=
  (decode 0x107#64 = .instr (.fwd .k1) ∧ decode 0x207#64 = .instr (.fwd .k2) ∧ decode 0x307#64 = .instr (.fwd .k3) ∧
    decode 0x108#64 = .instr (.rev .k1) ∧ decode 0x208#64 = .instr (.rev .k2) ∧ decode 0x308#64 = .instr (.rev .k3)) ∧
  (∀ (s : State) (key : KeySel), s.params.tables.ok = true →
    exec (.fwd key) s = .next { s with dout := s.ldin, stgcnt := s.stgcnt + 1#32 } ∧
    exec (.rev key) s = .next { s with dout := s.ldin, stgcnt := s.stgcnt + 1#32 }) ∧
  ∀ (w : BitVec 64) (s : State), opField w = 7#4 ∨ opField w = 8#4 →
    w ∉ [0x107#64, 0x207#64, 0x307#64, 0x108#64, 0x208#64, 0x308#64] →
    execWord w s = .next { s with err := if s.err = 0#4 then 5#4 else s.err, mode := .idle }

/-- R129 and R130: CENC and CDEC put DIN as latched into DOUT and count three stages modulo 2^32, and write nothing
else; their words; any other word with OP 9 or 10 records ILLEGAL_CMD. -/
def Obligations.CencCdecReturnTheBlock : Prop :=
  (decode 0x9#64 = .instr .cenc ∧ decode 0xA#64 = .instr .cdec) ∧
  (∀ s : State, s.params.tables.ok = true →
    exec .cenc s = .next { s with dout := s.ldin, stgcnt := s.stgcnt + 3#32 } ∧
    exec .cdec s = .next { s with dout := s.ldin, stgcnt := s.stgcnt + 3#32 }) ∧
  ∀ (w : BitVec 64) (s : State), opField w = 9#4 ∨ opField w = 10#4 → w ≠ 0x9#64 → w ≠ 0xA#64 →
    execWord w s = .next { s with err := if s.err = 0#4 then 5#4 else s.err, mode := .idle }

/-! ### The session commands (42_chaining.md) -/

/-- R149: ENC_START in any MODE clears ERR, makes the IV the feedback value and the output, and sets MODE to ENC; the IV
is DIN as latched, or one draw of a random source that answers, whatever its value (R148); nothing else is written; its
words; any other word with OP = 1 records ILLEGAL_CMD without clearing ERR first. -/
def Obligations.EncStartOpensWithTheIv : Prop :=
  (decode 0x1#64 = .instr (.encStart .rng) ∧ decode 0x101#64 = .instr (.encStart .din)) ∧
  (∀ s : State, exec (.encStart .din) s = .next { s with err := 0#4, fb := s.ldin, dout := s.ldin, mode := .enc }) ∧
  (∀ s : State, s.params.rngReady = true →
    exec (.encStart .rng) s = .next { s with
      err := 0#4, fb := Config.draw64 s.draws, dout := Config.draw64 s.draws, mode := .enc, draws := s.draws + 1 }) ∧
  ∀ (w : BitVec 64) (s : State), opField w = 1#4 → w ≠ 0x1#64 → w ≠ 0x101#64 →
    execWord w s = .next { s with err := if s.err = 0#4 then 5#4 else s.err, mode := .idle }

/-- R150: ENC_BLOCK in MODE ENC: the LEN bytes of DIN as latched, zero-padded, XOR the feedback value, through the
cascade, are the output block and the next feedback value; three stages are counted, and a short slice closes the
session; nothing else is written. Outside MODE ENC it records SEQUENCE (code 6) alone. Its words; any other word with
OP = 2 records ILLEGAL_CMD. (That the cascade changes nothing is CascadeIsIdentity.) -/
def Obligations.EncBlockEncryptsTheSlice : Prop :=
  (∀ n, 1 ≤ n → n ≤ 8 → decode (BitVec.ofNat 64 (2 + 16 * n)) = .instr (.encBlock n)) ∧
  (∀ (s : State) (len : Nat), s.mode = .enc → 1 ≤ len → len ≤ 8 →
    exec (.encBlock len) s = .next { s with
      dout := cascadeEnc s.params.tables ((s.ldin &&& (0xFFFFFFFFFFFFFFFF#64 <<< (64 - 8 * len))) ^^^ s.fb)
      fb := cascadeEnc s.params.tables ((s.ldin &&& (0xFFFFFFFFFFFFFFFF#64 <<< (64 - 8 * len))) ^^^ s.fb)
      stgcnt := s.stgcnt + 3#32
      mode := if len < 8 then .encClosed else .enc }) ∧
  (∀ (s : State) (len : Nat), s.mode ≠ .enc → 1 ≤ len → len ≤ 8 →
    exec (.encBlock len) s = .next { s with err := if s.err = 0#4 then 6#4 else s.err, mode := .idle }) ∧
  ∀ (w : BitVec 64) (s : State), opField w = 2#4 → (∀ n, 1 ≤ n → n ≤ 8 → w ≠ BitVec.ofNat 64 (2 + 16 * n)) →
    execWord w s = .next { s with err := if s.err = 0#4 then 5#4 else s.err, mode := .idle }

/-- R151: DEC_START in any MODE. With eight bytes it clears ERR, takes DIN as latched as the feedback value and sets MODE
to DEC. With fewer it clears ERR and then records TRUNCATED_INPUT (code 4), whatever ERR was, and DIN, FB, DOUT and
STGCNT are kept. Its words; any other word with OP = 3 records ILLEGAL_CMD. -/
def Obligations.DecStartTakesTheIvOrTruncated : Prop :=
  (∀ n, n ≤ 8 → decode (BitVec.ofNat 64 (3 + 16 * n)) = .instr (.decStart n)) ∧
  (∀ s : State, exec (.decStart 8) s = .next { s with err := 0#4, fb := s.ldin, mode := .dec }) ∧
  (∀ (s : State) (len : Nat), len < 8 → exec (.decStart len) s = .next { s with err := 4#4, mode := .idle }) ∧
  ∀ (w : BitVec 64) (s : State), opField w = 3#4 → (∀ n, n ≤ 8 → w ≠ BitVec.ofNat 64 (3 + 16 * n)) →
    execWord w s = .next { s with err := if s.err = 0#4 then 5#4 else s.err, mode := .idle }

/-- R152: DEC_BLOCK in MODE DEC with eight bytes: the block through the reverse cascade, XOR the feedback value, is the
output, the feedback value becomes the ciphertext, three stages are counted; nothing else is written. A shorter slice
records LENGTH_MISMATCH (code 3) alone. Outside MODE DEC it records SEQUENCE (code 6) alone, whatever the length. Its
words; any other word with OP = 4 records ILLEGAL_CMD. (That the cascade changes nothing is CascadeIsIdentity.) -/
def Obligations.DecBlockDecryptsTheBlock : Prop :=
  (∀ n, 1 ≤ n → n ≤ 8 → decode (BitVec.ofNat 64 (4 + 16 * n)) = .instr (.decBlock n)) ∧
  (∀ s : State, s.mode = .dec →
    exec (.decBlock 8) s = .next { s with
      dout := cascadeDec s.params.tables s.ldin ^^^ s.fb, fb := s.ldin, stgcnt := s.stgcnt + 3#32 }) ∧
  (∀ (s : State) (len : Nat), s.mode = .dec → 1 ≤ len → len < 8 →
    exec (.decBlock len) s = .next { s with err := if s.err = 0#4 then 3#4 else s.err, mode := .idle }) ∧
  (∀ (s : State) (len : Nat), s.mode ≠ .dec → 1 ≤ len → len ≤ 8 →
    exec (.decBlock len) s = .next { s with err := if s.err = 0#4 then 6#4 else s.err, mode := .idle }) ∧
  ∀ (w : BitVec 64) (s : State), opField w = 4#4 → (∀ n, 1 ≤ n → n ≤ 8 → w ≠ BitVec.ofNat 64 (4 + 16 * n)) →
    execWord w s = .next { s with err := if s.err = 0#4 then 5#4 else s.err, mode := .idle }

/-! ### Rules over all commands -/

/-- No command writes DIN (10_state.md R22), the latches, BUSY or OVR (R31), or anything outside the engine but the
count of draws. -/
def Obligations.CommandsKeepDinLatchesAndSurroundings : Prop :=
  ∀ (i : Instr) (s t : State), exec i s = .next t →
    t.din = s.din ∧ t.lcmd = s.lcmd ∧ t.ldin = s.ldin ∧ t.busy = s.busy ∧ t.ovr = s.ovr ∧
    t.params = s.params ∧ t.resetLine = s.resetLine ∧ t.turns = s.turns ∧ t.seen = s.seen ∧
    (i ≠ .encStart .rng → t.draws = s.draws)

/-- R204: a command that leaves a new error code has changed ERR and MODE alone. -/
def Obligations.ErrorsArePrecise : Prop :=
  ∀ (i : Instr) (s t : State), exec i s = .next t → t.err ≠ s.err → t.err ≠ 0#4 →
    t = { s with err := t.err, mode := .idle }

/-- Which commands can change DOUT (10_state.md R23) and FB (R24), and what each then writes; a command that changes DOUT
records no error. -/
def Obligations.DoutAndFbHaveTheseWriters : Prop :=
  ∀ (i : Instr) (s t : State), exec i s = .next t →
    (t.dout ≠ s.dout →
      (t.err = s.err ∨ t.err = 0#4) ∧
      ((i = .encStart .din ∧ t.dout = s.ldin) ∨ (i = .encStart .rng ∧ t.dout = Config.draw64 s.draws) ∨
        (∃ len, i = .encBlock len ∧ s.mode = .enc ∧
          t.dout = cascadeEnc s.params.tables (padReg s.ldin len ^^^ s.fb)) ∨
        (∃ len, i = .decBlock len ∧ s.mode = .dec ∧ 8 ≤ len ∧ t.dout = cascadeDec s.params.tables s.ldin ^^^ s.fb) ∨
        (∃ sel, i = .perm sel ∧ t.dout = permuteReg s.ldin (tableOf s.params.tables sel)) ∨
        (∃ key, i = .fwd key ∧ t.dout = forward s.params.tables s.ldin (Config.key key)) ∨
        (∃ key, i = .rev key ∧ t.dout = reverse s.params.tables s.ldin (Config.key key)) ∨
        (i = .cenc ∧ t.dout = cascadeEnc s.params.tables s.ldin) ∨
        (i = .cdec ∧ t.dout = cascadeDec s.params.tables s.ldin))) ∧
    (t.fb ≠ s.fb →
      (∃ src, i = .encStart src ∧ t.fb = t.dout) ∨ (∃ len, i = .encBlock len ∧ t.fb = t.dout) ∨
      (∃ len, i = .decStart len ∧ t.fb = s.ldin) ∨ (∃ len, i = .decBlock len ∧ t.fb = s.ldin))

/-- R207: ENC_START and ABORT leave ERR = NONE and DEC_START leaves NONE or its own TRUNCATED_INPUT, whatever ERR was;
reset leaves NONE; and in any step only these three commands and reset take ERR from a code to NONE. -/
def Obligations.ErrClearedOnlyByStartsAbortReset : Prop :=
  (∀ s t : State,
    (∀ src, exec (.encStart src) s = .next t → t.err = 0#4) ∧
    (exec .abort s = .next t → t.err = 0#4) ∧
    (∀ len, exec (.decStart len) s = .next t → t.err = if len < 8 then 4#4 else 0#4)) ∧
  (∀ (s : State) (rest : List Turn), s.turns = .assertReset :: rest → ∃ u, step s = .next u ∧ u.err = 0#4) ∧
  ∀ s u : State, step s = .next u → s.err ≠ 0#4 → u.err = 0#4 →
    (u.toEngine = Engine.reset ∧ u.resetLine = true) ∨
    (s.busy = true ∧ ∃ i, decode s.lcmd = .instr i ∧
      (i = .abort ∨ (∃ src, i = .encStart src) ∨ ∃ len, i = .decStart len))

/-- What sets MODE in any step (10_state.md R28, "set by"; 60_exceptions.md R217). -/
def Obligations.ModeOpensOnlyByStarts : Prop :=
  ∀ s u : State, step s = .next u → u.mode ≠ s.mode →
    (u.mode = .enc → s.busy = true ∧ ∃ src, decode s.lcmd = .instr (.encStart src)) ∧
    (u.mode = .dec → s.busy = true ∧ decode s.lcmd = .instr (.decStart 8)) ∧
    (u.mode = .encClosed → s.busy = true ∧ s.mode = .enc ∧ ∃ len, len < 8 ∧ decode s.lcmd = .instr (.encBlock len))

/-- What changes STGCNT in any step (10_state.md R30): one for FWD and REV, three for CENC, CDEC and the block
commands, modulo 2^32; only reset clears it. -/
def Obligations.StgcntCountsStages : Prop :=
  ∀ s u : State, step s = .next u → u.stgcnt ≠ s.stgcnt →
    (u.toEngine = Engine.reset ∧ u.resetLine = true) ∨
    (s.busy = true ∧ u.stgcnt = s.stgcnt + 1#32 ∧ ∃ key, decode s.lcmd = .instr (.fwd key) ∨ decode s.lcmd = .instr (.rev key)) ∨
    (s.busy = true ∧ u.stgcnt = s.stgcnt + 3#32 ∧
      (decode s.lcmd = .instr .cenc ∨ decode s.lcmd = .instr .cdec ∨
        (∃ len, decode s.lcmd = .instr (.encBlock len) ∧ s.mode = .enc) ∨
        (decode s.lcmd = .instr (.decBlock 8) ∧ s.mode = .dec)))

/-- No step changes the configuration (00_scope.md R13; 70_reset_and_hazards.md R230). -/
def Obligations.ConfigurationIsConstant : Prop :=
  ∀ s u : State, step s = .next u → u.params = s.params

/-- DIN changes only by the host's write to index 2, made by index or at the bus address that selects it, and by reset
(10_state.md R22; 20_memory.md R53, R54, R57). -/
def Obligations.DinChangesOnlyByHostWrite : Prop :=
  ∀ s u : State, step s = .next u → u.din ≠ s.din →
    (u.toEngine = Engine.reset ∧ u.resetLine = true) ∨
    (∃ rest, u = { s with turns := rest, din := u.din } ∧
      (s.turns = .write 2#5 u.din :: rest ∨
        ∃ addr, s.turns = .busWrite addr 8 u.din :: rest ∧ busIndex s.params.engineBase addr 8 = .port 2#5 ∧
          addr = s.params.enginePage ++ 0x10#8))

/-! ### Errors (60_exceptions.md) -/

/-- R201: RecordError keeps the first error since the last clear, closes the session, and writes nothing else; a second
error changes nothing more; and a command in error writes what RecordError writes and no result. -/
def Obligations.RecordErrorKeepsTheFirst : Prop :=
  (∀ (k : ErrKind) (s : State),
    recordError k s = { s with err := if s.err = 0#4 then k.code else s.err, mode := .idle } ∧
    ∀ k', recordError k' (recordError k s) = recordError k s) ∧
  ∀ (s : State) (len : Nat),
    (s.mode ≠ .enc → exec (.encBlock len) s = .next (recordError .sequence s)) ∧
    (s.mode ≠ .dec → exec (.decBlock len) s = .next (recordError .sequence s)) ∧
    (s.mode = .dec → len < 8 → exec (.decBlock len) s = .next (recordError .lengthMismatch s)) ∧
    (len < 8 → exec (.decStart len) s = .next (recordError .truncatedInput (clearError s)))

/-- R206: a later error leaves ERR as it was and still closes the session; at completion the command's own effect, any
error it records included, comes first, and a dropped write is recorded after it, so OVERRUN (code 7) is reported only
where the command left ERR = NONE; OVR is cleared. -/
def Obligations.OverrunRecordedAfterTheResult : Prop :=
  (∀ (k : ErrKind) (s : State), s.err ≠ 0#4 → recordError k s = { s with mode := .idle }) ∧
  ∀ (s t : State) (rest : List Turn),
    s.turns = .engine :: rest → s.busy = true → s.ovr = true → execWord s.lcmd { s with turns := rest } = .next t →
    step s = .next { t with
      err := if t.err = 0#4 then 7#4 else t.err, mode := .idle, ovr := false, busy := false }

/-- In every state a run reaches from reset, whatever the host does and whatever the parameters, ERR ≠ NONE implies
MODE = IDLE, and STATUS never reads with both fields nonzero: the spec's own inference ("In every reachable state",
R217). -/
def Obligations.ErrorImpliesIdleInEveryRun : Prop :=
  ∀ (n : Nat) (turns : List Turn) (params : Params) (t : State),
    runSteps n { State.reset with turns := turns, params := params } = .next t →
    (t.err ≠ 0#4 → t.mode = .idle) ∧
    ((statusWord t.toEngine).extractLsb' 4 4 = 0#4 ∨ (statusWord t.toEngine).extractLsb' 1 2 = 0#2)

/-- The invariant holds after reset: the registers by 10_state.md R37; the tables because the default ones that the model
carries meet R103 (notes/assumptions/1.md), and the reset line because the model has it released
(notes/assumptions/7.md). -/
def Obligations.InvariantAfterReset : Prop := Inv State.reset

/-- Every step keeps the invariant: an error closes the session (R217), only codes 0 and 3 to 7 are produced (R202),
OVR is set only while BUSY (R237), an asserted reset holds the registers (R230), the tables meet R103. -/
def Obligations.StepKeepsTheInvariant : Prop :=
  ∀ s u : State, Inv s → step s = .next u → Inv u

/-! ### The port (20_memory.md, 10_state.md) -/

/-- R54 and R57: a read shows the host the register's value and changes no register. -/
def Obligations.PortReadReturnsTheRegister : Prop :=
  ∀ (s : State) (idx : BitVec 5) (rest : List Turn), s.turns = .read idx :: rest → s.resetLine = false →
    ∃ v : BitVec 64, step s = .next { s with turns := rest, seen := s.seen ++ [ReadValue.mk idx v] } ∧
      (idx = 0#5 → v = 0#64) ∧
      (idx = 1#5 → v = 0#56 ++ s.err ++ 0#1 ++
        (match s.mode with | .idle => 0#2 | .enc => 1#2 | .dec => 2#2 | .encClosed => 3#2) ++ BitVec.ofBool s.busy) ∧
      (idx = 2#5 → v = s.din) ∧ (idx = 3#5 → v = s.dout) ∧ (idx = 4#5 → v = s.fb) ∧
      (idx = 5#5 → v = 0#32 ++ s.stgcnt) ∧ (6 ≤ idx.toNat → v = 0#64)

/-- R54 and R57: a write to DIN stores, a write to CMD issues a command or is dropped, a write to any other index has
no effect. -/
def Obligations.PortWriteHasTheseEffects : Prop :=
  ∀ (s : State) (idx : BitVec 5) (v : BitVec 64) (rest : List Turn),
    s.turns = .write idx v :: rest → s.resetLine = false →
    (idx = 0#5 → s.busy = false →
      step s = .next { s with turns := rest, lcmd := v, ldin := s.din, busy := true }) ∧
    (idx = 0#5 → s.busy = true → step s = .next { s with turns := rest, ovr := true }) ∧
    (idx = 2#5 → step s = .next { s with turns := rest, din := v }) ∧
    (idx ≠ 0#5 → idx ≠ 2#5 → step s = .next { s with turns := rest })

/-- R55: indices 6 to 31 read 0 and ignore writes; ENGINE_BASE is 256-byte aligned. -/
def Obligations.ReservedIndicesReadZeroIgnoreWrites : Prop :=
  (∀ (idx : BitVec 5) (v : BitVec 64) (s : State), 6 ≤ idx.toNat →
    readPort idx s.toEngine = 0#64 ∧ writePort idx v s = s) ∧
  ∀ p : Params, p.engineBase.extractLsb' 0 8 = 0#8

/-- R26: the fields of STATUS, its reserved bits, that no write to index 1 changes anything, and what it reads after
reset. -/
def Obligations.StatusHasTheseFields : Prop :=
  readPort 1#5 State.reset.toEngine = 0#64 ∧
  ∀ (s : State) (v : BitVec 64),
    readPort 1#5 s.toEngine = (s.err ++ 0#1 ++ s.mode.code ++ BitVec.ofBool s.busy).setWidth 64 ∧
    (readPort 1#5 s.toEngine).getLsbD 0 = s.busy ∧
    (readPort 1#5 s.toEngine).extractLsb' 1 2 = s.mode.code ∧
    s.mode.code = (match s.mode with | .idle => 0#2 | .enc => 1#2 | .dec => 2#2 | .encClosed => 3#2) ∧
    (readPort 1#5 s.toEngine).getLsbD 3 = false ∧
    (readPort 1#5 s.toEngine).extractLsb' 4 4 = s.err ∧
    (readPort 1#5 s.toEngine).extractLsb' 8 56 = 0#56 ∧
    writePort 1#5 v s = s

/-- A bus address (20_memory.md sections 2 to 4; that it has 64 bits is the model's choice, notes/assumptions/6.md): a
whole aligned access at ENGINE_BASE + 8·idx is the port transaction on `idx`; a narrower or misaligned one in the same
256 bytes is refused. -/
def Obligations.BusAccessIsPortTransactionOrRefused : Prop :=
  ∀ (s : State) (idx : BitVec 5) (v : BitVec 64) (rest : List Turn),
    (step { s with turns := .busRead (s.params.enginePage ++ idx ++ 0#3) 8 :: rest } =
      step { s with turns := .read idx :: rest }) ∧
    (step { s with turns := .busWrite (s.params.enginePage ++ idx ++ 0#3) 8 v :: rest } =
      step { s with turns := .write idx v :: rest }) ∧
    ∀ (low : BitVec 8) (bytes : Nat), bytes < 8 ∨ low.extractLsb' 0 3 ≠ 0#3 →
      step { s with turns := .busRead (s.params.enginePage ++ low) bytes :: rest } = .refused .notWholeRegister ∧
      step { s with turns := .busWrite (s.params.enginePage ++ low) bytes v :: rest } = .refused .notWholeRegister

/-! ### Reset (70_reset_and_hazards.md, 10_state.md) -/

/-- R37: the reset value of every register, and STATUS as it then reads; reset gives every register this value, and
leaves the configuration. -/
def Obligations.ResetGivesTheseValues : Prop :=
  State.reset.din = 0x0000000000000000#64 ∧ State.reset.dout = 0x0000000000000000#64 ∧
  State.reset.fb = 0x0000000000000000#64 ∧ State.reset.mode.code = 0#2 ∧ State.reset.mode = .idle ∧
  State.reset.err = 0#4 ∧ State.reset.busy = false ∧ State.reset.stgcnt = 0x00000000#32 ∧
  State.reset.lcmd = 0x0000000000000000#64 ∧ State.reset.ldin = 0x0000000000000000#64 ∧ State.reset.ovr = false ∧
  readPort 1#5 State.reset.toEngine = 0x0000000000000000#64 ∧
  ∀ (s : State) (rest : List Turn), s.turns = .assertReset :: rest → ∃ u, step s = .next u ∧
    u.toEngine = State.reset.toEngine ∧ u.params = s.params

/-- R231 (and R230): reset asserted, in any state and while a command runs, writes none of the command's results,
makes no draw, leaves the configuration, and gives every register its reset value. -/
def Obligations.ResetAbandonsTheCommand : Prop :=
  ∀ (s : State) (rest : List Turn), s.turns = .assertReset :: rest →
    step s = .next { s with toEngine := State.reset.toEngine, resetLine := true, turns := rest }

/-- After reset, asserted and released in any state, the engine accepts a CMD write at once (70_reset_and_hazards.md
section 1; that release is a move of its own is the model's choice, notes/assumptions/7.md). -/
def Obligations.AfterResetACommandIsAccepted : Prop :=
  ∀ (s : State) (w : BitVec 64) (rest : List Turn),
    runSteps 3 { s with turns := .assertReset :: .releaseReset :: .write 0#5 w :: rest } =
      .next { s with
        toEngine := { State.reset.toEngine with lcmd := w, busy := true }, resetLine := false, turns := rest }

/-- R232: a port transaction while reset is asserted is refused. -/
def Obligations.TransactionDuringResetIsRefused : Prop :=
  ∀ (s : State) (idx : BitVec 5) (v : BitVec 64) (rest : List Turn), s.resetLine = true →
    step { s with turns := .read idx :: rest } = .refused .transactionDuringReset ∧
    step { s with turns := .write idx v :: rest } = .refused .transactionDuringReset

/-! ### Execution and timing (70_reset_and_hazards.md) -/

/-- A command executes in two phases (R234). Accept latches the word and DIN; Complete is Execute of the decoded word on
the latched operand, or RecordError(ILLEGAL_CMD), then the overrun, then BUSY falls. The engine moves when its turn
comes; that its turn is an entry of the schedule, and that the entry changes nothing where BUSY = 0, is the model's
choice (notes/assumptions/3.md). While BUSY = 1 a host transaction changes DIN and OVR alone, so FB, MODE, ERR and
STGCNT are at completion what they were at acceptance: the spec's own inference ("So they have the same values they had
at acceptance", R234). A command awaiting a draw that never comes is not covered here (I12). -/
def Obligations.CommandExecutesInTwoPhases : Prop :=
  (∀ (s : State) (w : BitVec 64) (rest : List Turn),
    s.turns = .write 0#5 w :: rest → s.resetLine = false → s.busy = false →
    step s = .next { s with turns := rest, lcmd := w, ldin := s.din, busy := true }) ∧
  (∀ (s t : State) (rest : List Turn), s.turns = .engine :: rest → s.busy = true →
    ((∃ i, decode s.lcmd = .instr i ∧ exec i { s with turns := rest } = .next t) ∨
      (∃ why, decode s.lcmd = .illegal why ∧ t = recordError .illegalCmd { s with turns := rest })) →
    (t.ovr = false → step s = .next { t with busy := false }) ∧
    (t.ovr = true → step s = .next { recordError .overrun t with ovr := false, busy := false })) ∧
  (∀ (s : State) (rest : List Turn), s.turns = .engine :: rest → s.busy = false →
    step s = .next { s with turns := rest }) ∧
  ∀ (s u : State) (turn : Turn) (rest : List Turn), s.busy = true → s.turns = turn :: rest →
    turn ≠ .engine → turn ≠ .assertReset → step s = .next u →
    u.toEngine = { s.toEngine with din := u.din, ovr := u.ovr }

/-- A command placed with withFetchWord (the model's choice, notes/assumptions/8.md) is what the next step executes, as
a CMD write of it would have it. -/
def Obligations.PlacedWordIsExecutedNext : Prop :=
  ∀ (s t : State) (nbits w : Nat) (i : Instr), decodeTableWord nbits w = some i → s.ovr = false →
    exec i { s with lcmd := tableWord nbits w, ldin := s.din, busy := true, resetLine := false } = .next t →
    step (s.withFetchWord nbits w) = .next { t with busy := false }

/-- R236: a DIN write while a command runs changes DIN and not the command, and the next command sees the new DIN. -/
def Obligations.DinWriteDoesNotReachTheRunningCommand : Prop :=
  (∀ (s : State) (v : BitVec 64) (rest : List Turn), s.busy = true → s.resetLine = false →
    runSteps 2 { s with turns := .write 2#5 v :: .engine :: rest } =
      runSteps 2 { s with turns := .engine :: .write 2#5 v :: rest }) ∧
  ∀ (s : State) (v w : BitVec 64) (rest : List Turn), s.busy = false → s.resetLine = false →
    runSteps 2 { s with turns := .write 2#5 v :: .write 0#5 w :: rest } =
      .next { s with turns := rest, din := v, lcmd := w, ldin := v, busy := true }

/-- R237: a CMD write while BUSY is dropped: OVR is set, once however many writes are dropped, nothing else changes,
and at the command's completion the session is closed and OVR cleared. -/
def Obligations.CmdWriteWhileBusyIsDropped : Prop :=
  ∀ (s : State) (ws : List (BitVec 64)) (w : BitVec 64) (rest : List Turn), s.busy = true → s.resetLine = false →
    runSteps (ws.length + 1) { s with turns := (w :: ws).map (.write 0#5) ++ rest } =
      .next { s with turns := rest, ovr := true } ∧
    ∀ u : State, step { s with turns := .engine :: rest, ovr := true } = .next u →
      u.busy = false → u.ovr = false ∧ u.mode = .idle ∧ u.err ≠ 0#4

/-- For a host that polls, a command is Accept and Complete in one. From a host at rest, the CMD write and the
poll that sees BUSY = 1 `n` times leave what the atomic step leaves, and the poll has read the old MODE and ERR with
BUSY = 1, `n` times, and then the new STATUS: the spec's own inference ("The collapse is exact", R241), in the model's
schedule of moves (notes/assumptions/3.md). -/
def Obligations.PolledCommandIsAtomic : Prop :=
  ∀ (s t : State) (w : BitVec 64) (n : Nat), AtRest s →
    atomicCommand w { s with turns := [] } = .next t → t.busy = false →
    RunEnds [(.issue (.word w), n)] s { t with
      seen := s.seen ++ List.replicate n (ReadValue.mk 1#5 (0#56 ++ s.err ++ 0#1 ++ s.mode.code ++ 1#1)) ++
        [ReadValue.mk 1#5 (readPort 1#5 t.toEngine)] }

/-- Every accepted command completes. Whatever reads and writes the host still has to make, once they are made the
running command completes, and a poll lasts until it has, given a random source that answers (I12): R235's fairness in
the model's form of it, the engine moving where the schedule puts it and when no move is left
(notes/assumptions/3.md). -/
def Obligations.EveryAcceptedCommandCompletes : Prop :=
  ∀ s : State, s.busy = true → s.resetLine = false → s.params.rngReady = true →
    ((∀ turn ∈ s.turns, (∃ idx, turn = .read idx) ∨ ∃ idx v, turn = .write idx v) →
      ∃ t, runSteps (s.turns.length + 1) s = .next t ∧ t.busy = false) ∧
    ∀ (lat : Nat) (rest : List Turn), s.turns = .poll lat :: rest →
      ∃ t, runSteps (lat + 3) s = .next t ∧ t.busy = false ∧ t.turns = rest ∧
        t.seen = s.seen ++ List.replicate (lat + 1) (ReadValue.mk 1#5 (readPort 1#5 s.toEngine)) ++
          [ReadValue.mk 1#5 (readPort 1#5 t.toEngine)]

/-- A random source that never answers (I12, "The command never completes"): nothing is written and no draw is made, a
poll never ends, and the host's next line never runs; that a step leaves the command waiting is the model's choice
(notes/assumptions/5.md). -/
def Obligations.SilentSourceLeavesTheCommandWaiting : Prop :=
  ∀ (s : State) (rest : List Turn), s.params.rngReady = false → s.busy = true →
    decode s.lcmd = .instr (.encStart .rng) →
    (s.turns = .engine :: rest → exec (.encStart .rng) s = .fault .drawUnanswered ∧ step s = .next { s with turns := rest }) ∧
    ∀ lat n, s.resetLine = false → s.turns = .poll lat :: rest →
      ∃ t, runSteps n s = .next t ∧ t.toEngine = s.toEngine ∧ t.draws = s.draws ∧
        (t.turns = .engine :: .poll 0 :: rest ∨ ∃ k, t.turns = .poll k :: rest)

/-! ### Host programs (30_encoding.md section 4, 70_reset_and_hazards.md section 5) -/

/-- The expansions of R81: `poll` is `rd STATUS` repeated until bit 0 of the value read is 0; where the engine's moves
stand between the reads is the model's choice (notes/assumptions/3.md); `issue` is `cmd` and then `poll`; the forms
without a count are those with 8, read from their text as the model reads text (notes/assumptions/13.md); `ld` writes
DIN with the bytes given, the first the most significant, and zeros after them. -/
def Obligations.PseudoInstructionsExpandAsListed : Prop :=
  (∀ (s : State) (lat : Nat) (rest : List Turn), s.turns = .poll lat :: rest →
    ((readPort 1#5 s.toEngine).getLsbD 0 = false → step s = step { s with turns := .read 1#5 :: rest }) ∧
    ((readPort 1#5 s.toEngine).getLsbD 0 = true → ∃ again,
      step s = step { s with turns := .read 1#5 :: again ++ rest } ∧
      (again = [.engine, .poll 0] ∨ ∃ k, again = [.poll k]))) ∧
  (∀ lat, Line.poll.turns lat = [.engine, .poll 0] ∨ ∃ k, Line.poll.turns lat = [.poll k]) ∧
  (∀ (c : Command) (lat : Nat), (Line.issue c).turns lat = .write 0#5 c.toWord :: Line.poll.turns lat ∧
    (Line.issue c).turns lat = (Line.cmd c).turns lat ++ Line.poll.turns lat) ∧
  (parseLine "poll" = some .poll ∧ parseLine "issue nop" = some (.issue (.instr .nop)) ∧
    parseLine "cmd enc.block" = some (.cmd (.instr (.encBlock 8))) ∧
    parseLine "cmd dec.block" = some (.cmd (.instr (.decBlock 8))) ∧
    parseLine "cmd dec.start" = some (.cmd (.instr (.decStart 8))) ∧
    parseLine "issue enc.block" = some (.issue (.instr (.encBlock 8))) ∧
    parseLine "ld 48 45 4C" = some (.ld [0x48#8, 0x45#8, 0x4C#8])) ∧
  ∀ (bytes : List Byte) (lat : Nat), 1 ≤ bytes.length → bytes.length ≤ 8 →
    ∃ v, (Line.ld bytes).turns lat = [.write 2#5 v] ∧ ∀ k, k < 8 → byteAt v k = bytes.getD k 0#8

/-- When the run of a host program is over (R243): with no move left and no command running nothing moves any more
(R216), a run has one end under one schedule, the model's layout of the program with the latencies given
(notes/assumptions/14.md), and what it observes beside the final state is the values its own reads returned. A list of
moves used up with BUSY = 1 is no end: the engine still moves (notes/assumptions/3.md). -/
def Obligations.RunsEndOnceAndObserveTheirReads : Prop :=
  (∀ s : State, RunOver s → step s = .next s) ∧
  (∀ (program : List (Line × Nat)) (s t : State), RunEnds program s t →
    (t.turns = [] ∧ t.busy = false) ∧ t.seen = s.seen ++ (observation s t).reads ∧
    (observation s t).final = t.toEngine ∧ ∀ u, RunEnds program s u → u = t) ∧
  ∀ (s : State) (c : Command), AtRest s → ∃ t, runSteps 1 { s with turns := programTurns [(.cmd c, 0)] } = .next t ∧
    t.turns = [] ∧ t.busy = true ∧ ¬RunOver t

/-- A run's outcome is read off its last STATUS read (R243; 60_exceptions.md R208): a failure exactly where that shows
ERR ≠ NONE, whichever the code, with the code reported and the collected bytes discarded; a read of another register
changes nothing of it; a host that has read no STATUS knows no outcome. That one report is made of all the reads, those
of several sessions too, is the model's choice (notes/assumptions/15.md), and so is which DOUT reads count as collected
(notes/assumptions/16.md). -/
def Obligations.OutcomeIsTheLastStatusRead : Prop :=
  (∀ (reads others : List ReadValue) (v : BitVec 64), (∀ r ∈ others, r.idx ≠ 1#5) →
    (runFails (reads ++ [ReadValue.mk 1#5 v] ++ others) = true ↔ v.extractLsb' 4 4 ≠ 0#4) ∧
    (v.extractLsb' 4 4 ≠ 0#4 → report (reads ++ [ReadValue.mk 1#5 v] ++ others) = .failure (v.extractLsb' 4 4)) ∧
    (v.extractLsb' 4 4 = 0#4 → report (reads ++ [ReadValue.mk 1#5 v] ++ others) =
      .success (collected (reads ++ [ReadValue.mk 1#5 v] ++ others)))) ∧
  ∀ others : List ReadValue, (∀ r ∈ others, r.idx ≠ 1#5) → report others = .noStatus ∧ runFails others = false

/-! ### Messages (42_chaining.md) -/

/-- XorBytes of two packed blocks is the 64-bit XOR, lane by lane (the spec's own inferences, R140 "whatever the packing"
and R158), and operands of unequal length are a LengthMismatch. -/
def Obligations.XorOfBlocksIsXorOfBytes : Prop :=
  (∀ a b : BitVec 64, xorBytes (unpack a) (unpack b) = .ok (unpack (a ^^^ b)) ∧
    ∀ j, j < 8 → byteAt (a ^^^ b) j = byteAt a j ^^^ byteAt b j) ∧
  ∀ a b : List Byte,
    (a.length ≠ b.length → xorBytes a b = .error .lengthMismatch) ∧
    (a.length = b.length → ∃ x, xorBytes a b = .ok x ∧ x.length = a.length ∧
      ∀ i, i < a.length → x.getD i 0#8 = a.getD i 0#8 ^^^ b.getD i 0#8)

/-- KeepMask keeps the first L bytes, and padding in the datapath is padding of the slice, for every filler: the spec's
own inference (R141, "for every filler `y`"). -/
def Obligations.PaddingInTheDatapathPadsTheSlice : Prop :=
  (∀ (d : BitVec 64) (len : Nat), padReg d len = d &&& (0xFFFFFFFFFFFFFFFF#64 <<< (64 - 8 * len))) ∧
  (keepMask 8 = 0xFFFFFFFFFFFFFFFF#64 ∧ keepMask 1 = 0xFF00000000000000#64) ∧
  ∀ s y : List Byte, 1 ≤ s.length → s.length ≤ 8 → s.length + y.length = 8 →
    padReg (pack (s ++ y)) s.length = pack (s ++ List.replicate (8 - s.length) 0#8) ∧
    padSlice s = s ++ List.replicate (8 - s.length) 0#8

/-- R142: the slices are consecutive and lose nothing, each has eight bytes but a last one of `|x| mod 8`, there are
`ceil(|x| / 8)` of them, and an empty message has none. -/
def Obligations.SlicesCutIntoEights : Prop :=
  ∀ x : List Byte, (slices x).flatten = x ∧ (slices x).length = (x.length + 7) / 8 ∧
    (∀ j, 8 * j + 8 ≤ x.length → (slices x).getD j [] = (x.drop (8 * j)).take 8 ∧ ((slices x).getD j []).length = 8) ∧
    (x.length % 8 ≠ 0 → ((slices x).getLast?.map List.length) = some (x.length % 8)) ∧
    (x = [] → slices x = [])

/-- The closed forms, the spec's own inference (R146, "these closed forms hold"). Encrypt is the running XOR of the
padded blocks from the IV on; Decrypt is the XOR of each block with the one before it. -/
def Obligations.ChainingClosedForms : Prop :=
  ∀ t : Tables, t.ok = true →
    (∀ (p : List Byte) (iv : BitVec 64),
      encrypt t p (unpack iv) =
        .ok ((((slices p).map fun s => pack (padSlice s)).scanl (fun c x => x ^^^ c) iv).flatMap unpack)) ∧
    ∀ s : List Byte, 8 ≤ s.length → s.length % 8 = 0 →
      decrypt t s = .ok ((List.zipWith (fun c prev => c ^^^ prev) ((slices s).map pack).tail ((slices s).map pack)).flatMap
        unpack)

/-- The length laws and the round trip, the spec's own inference (R147, "These length laws hold"). -/
def Obligations.DecryptOfEncryptIsThePaddedPlaintext : Prop :=
  ∀ t : Tables, t.ok = true →
    (∀ p iv : List Byte, iv.length = 8 → ∃ c, encrypt t p iv = .ok c ∧
      c.length = 8 + 8 * ((p.length + 7) / 8) ∧ 8 ≤ c.length ∧ c.length % 8 = 0 ∧ (c.drop 8).length % 8 = 0 ∧
      decrypt t c = .ok (p ++ List.replicate ((8 - p.length % 8) % 8) 0#8) ∧
      (p.length % 8 ≠ 0 → decrypt t c ≠ .ok p)) ∧
    ∀ s out : List Byte, decrypt t s = .ok out → out.length = s.length - 8 ∧ out.length % 8 = 0

/-- Decrypt fails exactly on a stream shorter than the IV, with TruncatedInput, and on a body that is no multiple of
eight bytes, with LengthMismatch (R144; 95_test_vectors.md W7, W8). -/
def Obligations.DecryptFailsExactlyOnMalformedStreams : Prop :=
  ∀ (t : Tables) (s : List Byte),
    (s.length < 8 → decrypt t s = .error .truncatedInput) ∧
    (8 ≤ s.length → s.length % 8 ≠ 0 → decrypt t s = .error .lengthMismatch) ∧
    (8 ≤ s.length → s.length % 8 = 0 → ∃ out, decrypt t s = .ok out)

/-- R155 (a), (b), (d) for EncDriver, the spec's own inference ("this rule is a theorem about them"): from a host at
rest, with any latencies, the DOUT reads collect Encrypt(p, iv), where the IV is the one given or the one drawn; then
ERR = NONE, FB is the stream's last block, MODE says whether the last slice was whole, and STGCNT has counted three
stages a block. -/
def Obligations.EncDriverCollectsEncrypt : Prop :=
  ∀ (s : State) (src : IvSrc) (v : BitVec 64) (p : List Byte) (lats : List Nat),
    AtRest s → s.params.tables.ok = true → (src = .rng → s.params.rngReady = true) →
    lats.length = (encDriver src v p).length →
    ∃ (t : State) (reads : List ReadValue),
      RunEnds ((encDriver src v p).zip lats) s t ∧ AtRest t ∧
      t.seen = s.seen ++ reads ∧
      encrypt s.params.tables p (unpack (match src with | .din => v | .rng => Config.draw64 s.draws)) =
        .ok (collected reads) ∧
      t.err = 0#4 ∧
      unpack t.fb = (collected reads).drop ((collected reads).length - 8) ∧
      t.mode = (if p.length % 8 = 0 then .enc else .encClosed) ∧
      t.stgcnt = s.stgcnt + BitVec.ofNat 32 (3 * ((p.length + 7) / 8))

/-- R155 (c), (d) for DecDriver, the spec's own inference: from a host at rest, with any latencies, the host reports
Decrypt(x), the bytes on success and the error kind on failure, and STGCNT has counted three stages for each whole
block of the body. -/
def Obligations.DecDriverReportsDecrypt : Prop :=
  ∀ (s : State) (x : List Byte) (lats : List Nat),
    AtRest s → s.params.tables.ok = true → lats.length = (decDriver x).length →
    ∃ (t : State) (reads : List ReadValue),
      RunEnds ((decDriver x).zip lats) s t ∧ AtRest t ∧
      t.seen = s.seen ++ reads ∧
      driverResult reads = some (decrypt s.params.tables x) ∧
      t.stgcnt = s.stgcnt + BitVec.ofNat 32 (3 * ((x.length - 8) / 8))
end

