-- ==== Sys2Proof/Tests/Slice0.lean ====
section
/-! SUPPORT. The model's own tests: ill-formed commands are refused, words written out bit by bit decode to their
commands, one step of each command gives what 95_test_vectors.md lists, and every statement with hypotheses has a state
that meets them. Expected values are the spec's, not the model's. -/

namespace Sys2Proof.Tests

open Sys2Proof Sys2Proof.Machine

set_option maxRecDepth 20000

/-! ### Well-formedness: each check refuses a term -/

theorem test_wf_encBlock_zero : (Instr.encBlock 0).wf = false := by decide
theorem test_wf_encBlock_nine : (Instr.encBlock 9).wf = false := by decide
theorem test_wf_decStart_nine : (Instr.decStart 9).wf = false := by decide
theorem test_wf_decBlock_zero : (Instr.decBlock 0).wf = false := by decide
theorem test_wf_decBlock_nine : (Instr.decBlock 9).wf = false := by decide
theorem test_wf_legal_commands : legalCommands.all Instr.wf = true := by decide

/-! ### Decoding: SEL, LEN, OP written out bit by bit (30_encoding.md R70, R76) -/

theorem test_decode_nop : decode 0b0000000000#64 = .instr .nop := by decide
theorem test_decode_encStart_rng : decode 0b0000000001#64 = .instr (.encStart .rng) := by decide
theorem test_decode_encStart_din : decode 0b0100000001#64 = .instr (.encStart .din) := by decide
theorem test_decode_encBlock : decode 0b0000110010#64 = .instr (.encBlock 3) := by decide
theorem test_decode_decStart : decode 0b0010000011#64 = .instr (.decStart 8) := by decide
theorem test_decode_decBlock : decode 0b0001010100#64 = .instr (.decBlock 5) := by decide
theorem test_decode_abort : decode 0b0000000101#64 = .instr .abort := by decide
theorem test_decode_perm : decode 0b0100000110#64 = .instr (.perm .ipinv) := by decide
theorem test_decode_fwd : decode 0b1000000111#64 = .instr (.fwd .k2) := by decide
theorem test_decode_rev : decode 0b1100001000#64 = .instr (.rev .k3) := by decide
theorem test_decode_cenc : decode 0b0000001001#64 = .instr .cenc := by decide
theorem test_decode_cdec : decode 0b0000001010#64 = .instr .cdec := by decide
theorem test_decode_op_eleven : decode 0b0000001011#64 = .illegal .opcode := by decide
theorem test_decode_reserved_bit : decode 0x8000000000000082#64 = .illegal .reservedBits := by decide
theorem test_decode_e_table : decode 0x206#64 = .illegal .fieldRange := by decide
theorem test_table_word : decodeTableWord 64 0x082 = some (.encBlock 8) := by decide

/-! ### One step of each command (95_test_vectors.md section 2) -/

/-- A field of the state that the command `w` leaves, started from `s`. -/
def after {α : Type} (w : Nat) (s : State) (f : State → α) : Option α :=
  match step (s.withFetchWord 64 w) with
  | .next t => some (f t)
  | _ => none

/-- A small state: DIN, FB and MODE as given, the rest as after reset. -/
def small (din fb : BitVec 64) (mode : Mode) : State := { State.reset with din := din, fb := fb, mode := mode }

theorem test_nop_keeps : after 0x0 (small 1#64 0x1111111111111111#64 .enc) (fun t => (t.fb, t.mode, t.busy)) =
    some (0x1111111111111111#64, .enc, false) := by decide

theorem test_encStart_din : after 0x101 (small 0x0123456789ABCDEF#64 0#64 .idle) (fun t => (t.fb, t.dout, t.mode)) =
    some (0x0123456789ABCDEF#64, 0x0123456789ABCDEF#64, .enc) := by decide

theorem test_encStart_rng : after 0x1 (small 0#64 0#64 .idle) (fun t => (t.mode, t.draws)) = some (.enc, 1) := by decide

theorem test_encBlock_hello : after 0x82 (small 0x48454C4C4F48454C#64 0x0123456789ABCDEF#64 .enc)
    (fun t => (t.dout, t.stgcnt)) = some (0x4966092BC6E388A3#64, 3#32) := by decide

theorem test_encBlock_short : after 0x32 (small 0x1122334455667788#64 0#64 .enc) (fun t => (t.fb, t.mode)) =
    some (0x1122330000000000#64, .encClosed) := by decide

theorem test_decStart_short : after 0x53 { small 0x1234#64 0#64 .idle with err := 5#4 } (fun t => (t.err, t.fb)) =
    some (4#4, 0#64) := by decide

theorem test_decStart_whole : after 0x83 (small 0x1234#64 0#64 .idle) (fun t => (t.fb, t.mode, t.dout)) =
    some (0x1234#64, .dec, 0#64) := by decide

theorem test_decBlock_hello : after 0x84 (small 0x4966092BC6E388A3#64 0x0123456789ABCDEF#64 .dec)
    (fun t => (t.dout, t.fb)) = some (0x48454C4C4F48454C#64, 0x4966092BC6E388A3#64) := by decide

theorem test_decBlock_short_in_idle_is_sequence : after 0x34 (small 0#64 5#64 .idle) (fun t => (t.err, t.fb)) =
    some (6#4, 5#64) := by decide

theorem test_abort : after 0x5 { small 0#64 3#64 .idle with err := 6#4, stgcnt := 3#32 }
    (fun t => (t.err, t.fb, t.stgcnt)) = some (0#4, 3#64, 3#32) := by decide

theorem test_perm_ip : after 0x6 (small 0x0123456789ABCDEF#64 0#64 .idle) (fun t => t.dout) =
    some 0xCC00CCFFF0AAF0AA#64 := by decide

theorem test_perm_ipinv : after 0x106 (small 0x8000000000000000#64 0#64 .idle) (fun t => t.dout) =
    some 0x0000000000000040#64 := by decide

theorem test_fwd_wraps_count : after 0x107 { small 0x0123456789ABCDEF#64 0#64 .idle with stgcnt := 0xFFFFFFFF#32 }
    (fun t => (t.dout, t.stgcnt)) = some (0x0123456789ABCDEF#64, 0#32) := by decide

theorem test_rev_all_ones : after 0x308 (small 0xFFFFFFFFFFFFFFFF#64 0#64 .idle) (fun t => (t.dout, t.stgcnt)) =
    some (0xFFFFFFFFFFFFFFFF#64, 1#32) := by decide

theorem test_cenc_wraps_count : after 0x9 { small 7#64 0#64 .idle with stgcnt := 0xFFFFFFFE#32 }
    (fun t => (t.dout, t.stgcnt)) = some (7#64, 1#32) := by decide

theorem test_cdec : after 0xA (small 0x0123456789ABCDEF#64 0#64 .idle) (fun t => (t.dout, t.stgcnt)) =
    some (0x0123456789ABCDEF#64, 3#32) := by decide

theorem test_illegal_word_status : after 0xB State.reset (fun t => statusWord t.toEngine) = some 0x50#64 := by decide

/-- Program P5's hazard (95_test_vectors.md, lines 7 to 10): OVERRUN after ENC_START's own result. -/
theorem test_overrun_status : after 0x101 { small 5#64 0#64 .dec with ovr := true }
    (fun t => (statusWord t.toEngine, t.fb)) = some (0x70#64, 5#64) := by decide

/-- A read between lines 7 and 9 of P5 returns 0x05. -/
theorem test_stale_status : readPort 1#5 (accept 0x101#64 (small 5#64 0#64 .dec)).toEngine = 0x05#64 := by decide

theorem test_message_vector : encrypt defaultTables [0x41#8] (unpack 0x0011223344556677#64) =
    .ok (unpack 0x0011223344556677#64 ++ unpack 0x4111223344556677#64) := by rfl

theorem test_parse_line : parseLine "wr DIN, 0x1111 ; comment" = some (.wr .din 0x1111#64) := by decide

theorem test_parse_default_count : parseLine "issue enc.block" = some (.issue (.instr (.encBlock 8))) := by decide

/-! ### Witnesses: each statement's hypotheses are met together -/

/-- A command `w` accepted in `s`, the engine next to move. -/
def running (w : BitVec 64) (s : State) : State := placeCommand w s

theorem witness_tables_ok : defaultTables.ok = true := defaultTables_ok

theorem witness_DecodeOfEncodeIsTheCommand : (Instr.decStart 0).wf = true ∧ (Instr.encBlock 8).wf = true := by decide

theorem witness_EncodeOfDecodeIsTheWord : decode 0x83#64 = .instr (.decStart 8) := by decide

theorem witness_DecoderAgreesWithOpcodeTable : decode 0x83#64 = .instr (.decStart 8) ∧
    (Instr.decStart 8).row ∈ opcodeTable ∧ (Instr.decStart 8).row.accepts 0x83#64 = true := by decide

theorem witness_IllegalWordOnlyRecordsIllegalCmd :
    (running 0xB#64 State.reset).turns = .engine :: [] ∧ (running 0xB#64 State.reset).busy = true ∧
    (running 0xB#64 State.reset).ovr = false ∧ decode (running 0xB#64 State.reset).lcmd = .illegal .opcode := by decide

/-- The three grounds of an illegal word, at their boundaries: OP 11, the lowest RSV bit, LEN 9. -/
theorem witness_illegal_grounds : 11 ≤ (opField 0xB#64).toNat ∧ rsvField 0x400#64 ≠ 0#54 ∧
    ∀ r ∈ opcodeTable, r.accepts 0x92#64 = false := by decide

/-- A host at rest, a busy engine, and words with OP = 0 that are not NOP, at the lowest LEN, SEL and RSV bit. -/
theorem witness_NopDoesNothing : AtRest State.reset ∧ (running 0x0#64 State.reset).busy = true ∧
    ∀ w ∈ [0x10#64, 0x100#64, 0x400#64, 0x8000000000000000#64], opField w = 0#4 ∧ w ≠ 0x0#64 := by
  refine ⟨by decide, by decide, ?_⟩
  simp only [List.forall_mem_cons, List.not_mem_nil, false_implies, implies_true, and_true]
  decide

theorem witness_AbortClearsErrAndCloses : (State.reset.mode = .idle ∧ State.reset.err = 0#4) ∧
    (∃ t, exec .abort (small 1#64 2#64 .enc) = .next t) ∧
    ∀ w ∈ [0x15#64, 0x105#64, 0x405#64], opField w = 5#4 ∧ w ≠ 0x5#64 := by
  refine ⟨by decide, ⟨_, rfl⟩, ?_⟩
  simp only [List.forall_mem_cons, List.not_mem_nil, false_implies, implies_true, and_true]
  decide

theorem witness_PermuteRegIsPermuteOnBytes : defaultIp.length = 64 ∧ ∀ e ∈ defaultIp, 1 ≤ e ∧ e ≤ 64 := by decide

theorem witness_PermWritesThePermutedBlock : State.reset.params.tables.ok = true ∧
    (∃ t, exec (.perm .ip) State.reset = .next t) ∧
    ∀ w ∈ [0x16#64, 0x206#64, 0x306#64], opField w = 6#4 ∧ w ≠ 0x6#64 ∧ w ≠ 0x106#64 := by
  refine ⟨defaultTables_ok, ⟨_, rfl⟩, ?_⟩
  simp only [List.forall_mem_cons, List.not_mem_nil, false_implies, implies_true, and_true]
  decide

/-- Also SingleStageIsIdentity and CascadeIsIdentity, with the session states below. -/
theorem witness_stage_tables : State.reset.params.tables.ok = true := defaultTables_ok

theorem witness_SourceStageIsIdentityOrSizeError : (zeros 8).length = 8 ∧ (zeros 7).length ≠ 8 := by decide

/-- Words with OP = 7 and OP = 8 that are no FWD and no REV: SEL = 0 and LEN ≠ 0. -/
theorem witness_FwdRevReturnTheBlock : State.reset.params.tables.ok = true ∧
    ∀ w ∈ [0x7#64, 0x117#64, 0x8#64, 0x118#64], (opField w = 7#4 ∨ opField w = 8#4) ∧
      w ∉ [0x107#64, 0x207#64, 0x307#64, 0x108#64, 0x208#64, 0x308#64] := by
  refine ⟨defaultTables_ok, ?_⟩
  simp only [List.forall_mem_cons, List.not_mem_nil, false_implies, implies_true, and_true]
  decide

theorem witness_CencCdecReturnTheBlock : State.reset.params.tables.ok = true ∧
    ∀ w ∈ [0x19#64, 0x109#64, 0x1A#64, 0x10A#64], (opField w = 9#4 ∨ opField w = 10#4) ∧ w ≠ 0x9#64 ∧ w ≠ 0xA#64 := by
  refine ⟨defaultTables_ok, ?_⟩
  simp only [List.forall_mem_cons, List.not_mem_nil, false_implies, implies_true, and_true]
  decide

theorem witness_EncStartOpensWithTheIv : State.reset.params.rngReady = true ∧
    ∀ w ∈ [0x11#64, 0x201#64, 0x401#64], opField w = 1#4 ∧ w ≠ 0x1#64 ∧ w ≠ 0x101#64 := by
  refine ⟨by decide, ?_⟩
  simp only [List.forall_mem_cons, List.not_mem_nil, false_implies, implies_true, and_true]
  decide

/-- Both clauses at the lowest and the highest LEN. -/
theorem witness_EncBlockEncryptsTheSlice : (small 1#64 2#64 .enc).params.tables.ok = true ∧
    (small 1#64 2#64 .enc).mode = .enc ∧ (small 1#64 2#64 .encClosed).mode ≠ .enc ∧
    (1 ≤ 1 ∧ 1 ≤ 8) ∧ (1 ≤ 8 ∧ 8 ≤ 8) := ⟨defaultTables_ok, by decide⟩

/-- Words with OP = 2 that are no ENC_BLOCK: LEN 0 and LEN 9. -/
theorem witness_EncBlock_other_words : ∀ w ∈ [0x2#64, 0x92#64], opField w = 2#4 ∧
    ∀ n, 1 ≤ n → n ≤ 8 → w ≠ BitVec.ofNat 64 (2 + 16 * n) := by
  simp only [List.forall_mem_cons, List.not_mem_nil, false_implies, implies_true, and_true]
  refine ⟨⟨by decide, fun n h1 h8 => ?_⟩, by decide, fun n h1 h8 => ?_⟩ <;> interval_cases n <;> decide

/-- The shortest and the longest short slice, and the first LEN that is none. -/
theorem witness_DecStartTakesTheIvOrTruncated : 0 < 8 ∧ 7 < 8 ∧ opField 0x93#64 = 3#4 ∧
    ∀ n, n ≤ 8 → 0x93#64 ≠ BitVec.ofNat 64 (3 + 16 * n) := by
  refine ⟨by decide, by decide, by decide, fun n h8 => ?_⟩
  interval_cases n <;> decide

theorem witness_DecBlockDecryptsTheBlock : (small 1#64 2#64 .dec).params.tables.ok = true ∧
    (small 1#64 2#64 .dec).mode = .dec ∧ (small 1#64 2#64 .enc).mode ≠ .dec ∧
    (1 ≤ 1 ∧ 1 < 8) ∧ (1 ≤ 7 ∧ 7 < 8) ∧ (1 ≤ 8 ∧ 8 ≤ 8) := ⟨defaultTables_ok, by decide⟩

theorem witness_DecBlock_other_words : ∀ w ∈ [0x4#64, 0x94#64], opField w = 4#4 ∧
    ∀ n, 1 ≤ n → n ≤ 8 → w ≠ BitVec.ofNat 64 (4 + 16 * n) := by
  simp only [List.forall_mem_cons, List.not_mem_nil, false_implies, implies_true, and_true]
  refine ⟨⟨by decide, fun n h1 h8 => ?_⟩, by decide, fun n h1 h8 => ?_⟩ <;> interval_cases n <;> decide

theorem witness_CommandsKeepDinLatchesAndSurroundings : exec .cenc State.reset ≠ .refused .outsidePort ∧
    ∃ t, exec (.decStart 8) State.reset = .next t := ⟨exec_ne_refused _ _ _, _, rfl⟩

theorem witness_ErrorsArePrecise : ∃ t, exec (.decBlock 3) State.reset = .next t ∧ t.err ≠ State.reset.err ∧
    t.err ≠ 0#4 := ⟨_, rfl, by decide⟩

theorem witness_DoutAndFbHaveTheseWriters : ∃ t,
    exec (.encStart .din) { State.reset with ldin := 9#64 } = .next t ∧ t.dout ≠ 0#64 ∧ t.fb ≠ 0#64 := ⟨_, rfl, by decide⟩

/-- A state with an error and ABORT running: the step clears ERR. -/
theorem witness_ErrClearedOnlyByStartsAbortReset : ∃ u,
    step (running 0x5#64 { State.reset with err := 6#4 }) = .next u ∧
    (running 0x5#64 { State.reset with err := 6#4 }).err ≠ 0#4 ∧ u.err = 0#4 := ⟨_, rfl, by decide⟩

/-- Each of the three commands completes from a state with an error, and reset can be asserted in it. -/
theorem witness_err_cleared : (∃ t, exec (.encStart .din) { State.reset with err := 6#4 } = .next t) ∧
    (∃ t, exec .abort { State.reset with err := 6#4 } = .next t) ∧
    (∃ t, exec (.decStart 7) { State.reset with err := 6#4 } = .next t) ∧
    ({ State.reset with err := 6#4, turns := [.assertReset] } : State).turns = .assertReset :: [] :=
  ⟨⟨_, rfl⟩, ⟨_, rfl⟩, ⟨_, rfl⟩, rfl⟩

/-- ENC_START running: the step sets MODE to ENC. -/
theorem witness_mode_enc : ∃ u, step (running 0x101#64 State.reset) = .next u ∧
    u.mode ≠ (running 0x101#64 State.reset).mode ∧ u.mode = .enc := ⟨_, rfl, by decide⟩

/-- DEC_START running: the step sets MODE to DEC. -/
theorem witness_mode_dec : ∃ u, step (running 0x83#64 State.reset) = .next u ∧
    u.mode ≠ (running 0x83#64 State.reset).mode ∧ u.mode = .dec := ⟨_, rfl, by decide⟩

/-- ENC_BLOCK with seven bytes running: the step closes the session. -/
theorem witness_mode_encClosed : ∃ u, step (running 0x72#64 (small 0#64 0#64 .enc)) = .next u ∧
    u.mode ≠ (running 0x72#64 (small 0#64 0#64 .enc)).mode ∧ u.mode = .encClosed := ⟨_, rfl, by decide⟩

theorem witness_StgcntCountsStages : ∃ u, step (running 0x9#64 State.reset) = .next u ∧
    u.stgcnt ≠ (running 0x9#64 State.reset).stgcnt := ⟨_, rfl, by decide⟩

theorem witness_ConfigurationIsConstant : ∃ u, step State.reset = .next u := ⟨_, rfl⟩

/-- DIN changed in each of the three ways: a write by index, a write at ENGINE_BASE + 0x10, and reset. -/
theorem witness_DinChangesOnlyByHostWrite :
    (∃ u, step { State.reset with turns := [.write 2#5 7#64] } = .next u ∧ u.din ≠ 0#64) ∧
    (∃ u, step { State.reset with turns := [.busWrite 0x10#64 8 7#64] } = .next u ∧ u.din ≠ 0#64) ∧
    (∃ u, step { small 7#64 0#64 .idle with turns := [.assertReset] } = .next u ∧ u.din ≠ 7#64) :=
  ⟨⟨_, rfl, by decide⟩, ⟨_, rfl, by decide⟩, ⟨_, rfl, by decide⟩⟩

/-- Each command error of RecordError's statement at its boundary. -/
theorem witness_RecordErrorKeepsTheFirst : (small 0#64 0#64 .encClosed).mode ≠ .enc ∧
    (small 0#64 0#64 .enc).mode ≠ .dec ∧ (small 0#64 0#64 .dec).mode = .dec ∧ 7 < 8 := by decide

theorem witness_OverrunRecordedAfterTheResult : (∃ s : State, s.err ≠ 0#4) ∧
    ∃ s t : State, s.turns = .engine :: [] ∧ s.busy = true ∧ s.ovr = true ∧
      execWord s.lcmd { s with turns := [] } = .next t ∧ t.err = 0#4 :=
  ⟨⟨{ State.reset with err := 5#4 }, by decide⟩, running 0x0#64 { State.reset with ovr := true }, _, rfl, rfl, rfl, rfl, rfl⟩

/-- A run of two moves whose last state shows an error. -/
theorem witness_ErrorImpliesIdleInEveryRun : ∃ t,
    runSteps 2 { State.reset with turns := [.write 0#5 0x82#64, .engine], params := defaultParams } = .next t ∧
    t.err ≠ 0#4 := ⟨_, rfl, by decide⟩

theorem witness_StepKeepsTheInvariant : Inv (running 0x101#64 State.reset) ∧
    ∃ u, step (running 0x101#64 State.reset) = .next u :=
  ⟨⟨by decide, by decide, by decide, by decide, defaultTables_ok⟩, _, rfl⟩

theorem witness_PortReadReturnsTheRegister : ∀ idx ∈ [0#5, 1#5, 2#5, 3#5, 4#5, 5#5, 6#5, 31#5],
    ({ State.reset with turns := [.read idx] } : State).turns = [.read idx] ∧ State.reset.resetLine = false := by
  simp

/-- Writes to indices 0 (idle and busy), 2, and the neighbours 1, 3 and 31. -/
theorem witness_PortWriteHasTheseEffects :
    ({ State.reset with turns := [.write 0#5 5#64] } : State).busy = false ∧
    ({ State.reset with busy := true, turns := [.write 0#5 5#64] } : State).busy = true ∧
    (1#5 ≠ 0#5 ∧ 1#5 ≠ 2#5 ∧ 3#5 ≠ 0#5 ∧ 3#5 ≠ 2#5 ∧ 31#5 ≠ 0#5 ∧ 31#5 ≠ 2#5) := by decide

theorem witness_ReservedIndicesReadZeroIgnoreWrites : 6 ≤ (6#5).toNat ∧ 6 ≤ (31#5).toNat := by decide

/-- The lowest misaligned offset, the highest one, and the widest narrow access. -/
theorem witness_BusAccessIsPortTransactionOrRefused :
    (1#8).extractLsb' 0 3 ≠ 0#3 ∧ (255#8).extractLsb' 0 3 ≠ 0#3 ∧ 7 < 8 ∧ (248#8).extractLsb' 0 3 = 0#3 := by decide

/-- Also ResetGivesTheseValues: reset asserted while a command runs. -/
theorem witness_ResetAbandonsTheCommand :
    ({ running 0x9#64 State.reset with turns := [.assertReset] } : State).turns = .assertReset :: [] ∧
    ({ running 0x9#64 State.reset with turns := [.assertReset] } : State).busy = true := by decide

theorem witness_TransactionDuringResetIsRefused : ({ State.reset with resetLine := true } : State).resetLine = true := rfl

/-- Both phases: a CMD write of an idle engine, and a command that is running, legal and illegal. -/
theorem witness_CommandExecutesInTwoPhases :
    (State.reset.resetLine = false ∧ State.reset.busy = false) ∧
    (∃ t, exec (.decStart 8) { running 0x83#64 State.reset with turns := [] } = .next t ∧ t.ovr = false) ∧
    (∃ t, exec (.decStart 8) { running 0x83#64 { State.reset with ovr := true } with turns := [] } = .next t ∧
      t.ovr = true) ∧
    decode (running 0x83#64 State.reset).lcmd = .instr (.decStart 8) ∧
    decode (running 0xF#64 State.reset).lcmd = .illegal .opcode :=
  ⟨by decide, ⟨_, rfl, rfl⟩, ⟨_, rfl, rfl⟩, by decide, by decide⟩

theorem witness_engine_move_idle : ({ State.reset with turns := [.engine] } : State).turns = .engine :: [] ∧
    State.reset.busy = false := by decide

/-- A host transaction while a command runs. -/
theorem witness_transaction_while_busy : ∃ u,
    ({ running 0x83#64 State.reset with turns := [.write 2#5 7#64] } : State).busy = true ∧
    step { running 0x83#64 State.reset with turns := [.write 2#5 7#64] } = .next u := ⟨_, rfl, rfl⟩

theorem witness_PlacedWordIsExecutedNext : ∃ t, decodeTableWord 64 0x83 = some (.decStart 8) ∧ State.reset.ovr = false ∧
    exec (.decStart 8) { State.reset with
      lcmd := tableWord 64 0x83, ldin := State.reset.din, busy := true, resetLine := false } = .next t :=
  ⟨_, by decide, rfl, rfl⟩

/-- A running command with reset released: the premises on a busy engine. -/
theorem witness_busy_engine : (running 0x9#64 State.reset).busy = true ∧ (running 0x9#64 State.reset).resetLine = false ∧
    (running 0x9#64 State.reset).params.rngReady = true := by decide

theorem witness_DinWriteDoesNotReachTheRunningCommand : State.reset.busy = false ∧ State.reset.resetLine = false := by
  decide

theorem witness_CmdWriteWhileBusyIsDropped : ∃ u,
    step { running 0x0#64 State.reset with turns := .engine :: [], ovr := true } = .next u ∧ u.busy = false :=
  ⟨_, rfl, rfl⟩

theorem witness_PolledCommandIsAtomic : AtRest State.reset ∧
    ∃ t, atomicCommand 0x83#64 { State.reset with turns := [] } = .next t ∧ t.busy = false :=
  ⟨by decide, _, rfl, rfl⟩

theorem witness_EveryAcceptedCommandCompletes :
    ∀ turn ∈ [Turn.read 1#5, .write 0#5 0x9#64], (∃ idx, turn = .read idx) ∨ ∃ idx v, turn = .write idx v := by
  simp

/-- A command that awaits a draw that never comes, the engine next to move. -/
def silent : State := running 0x1#64 { State.reset with params := { defaultParams with rngReady := false } }

theorem witness_SilentSourceLeavesTheCommandWaiting : silent.params.rngReady = false ∧ silent.busy = true ∧
    decode silent.lcmd = .instr (.encStart .rng) ∧ silent.turns = .engine :: [] ∧ silent.resetLine = false ∧
    ({ silent with turns := [.poll 0] } : State).turns = .poll 0 :: [] := by decide

theorem witness_poll_of_a_running_command :
    ({ running 0x9#64 State.reset with turns := [.poll 0] } : State).busy = true ∧
    ({ running 0x9#64 State.reset with turns := [.poll 0] } : State).resetLine = false := by decide

/-- A poll of an idle engine and of a busy one. -/
theorem witness_PseudoInstructionsExpandAsListed :
    (readPort 1#5 ({ State.reset with turns := [.poll 2] } : State).toEngine).getLsbD 0 = false ∧
    (readPort 1#5 ({ silent with turns := [.poll 2] } : State).toEngine).getLsbD 0 = true ∧
    (1 ≤ (zeros 1).length ∧ (zeros 8).length ≤ 8) := by decide

/-- `poll` of an idle engine reads STATUS once, whatever the schedule (30_encoding.md R81). -/
theorem test_poll_idle_reads_once : step { State.reset with turns := [.poll 2] } =
    .next { State.reset with seen := [ReadValue.mk 1#5 0#64] } := rfl

/-- A state with no move left and no command running; a run that ends; a host at rest. -/
theorem witness_RunsEndOnceAndObserveTheirReads : RunOver State.reset ∧ AtRest State.reset ∧
    ∃ t, RunEnds [(.cmd (.instr (.decStart 8)), 0), (.poll, 1)] State.reset t :=
  ⟨by decide, by decide, _, 4, rfl, by decide⟩

/-- Each outcome: no STATUS read, an error of the hardware's own, none; a read of DOUT at the end. -/
theorem witness_OutcomeIsTheLastStatusRead : (∀ r ∈ [ReadValue.mk 3#5 0#64], r.idx ≠ 1#5) ∧
    (0x60#64).extractLsb' 4 4 ≠ 0#4 ∧ (0x01#64).extractLsb' 4 4 = 0#4 := by
  refine ⟨by simp, by decide, by decide⟩

theorem witness_PaddingInTheDatapathPadsTheSlice : 1 ≤ (zeros 1).length ∧ (zeros 1).length ≤ 8 ∧
    (zeros 1).length + (zeros 7).length = 8 ∧ (zeros 8).length + (zeros 0).length = 8 := by decide

theorem witness_XorOfBlocksIsXorOfBytes : (zeros 3).length ≠ (zeros 4).length ∧ (zeros 3).length = (zeros 3).length := by
  decide

theorem witness_ChainingClosedForms : 8 ≤ (zeros 8).length ∧ (zeros 8).length % 8 = 0 := by decide

theorem witness_DecryptOfEncryptIsThePaddedPlaintext : (zeros 8).length = 8 ∧
    ∃ out, decrypt defaultTables (zeros 8) = .ok out := ⟨by decide, _, rfl⟩

theorem witness_DecryptFailsExactlyOnMalformedStreams : (zeros 7).length < 8 ∧
    (8 ≤ (zeros 9).length ∧ (zeros 9).length % 8 ≠ 0) ∧ (8 ≤ (zeros 8).length ∧ (zeros 8).length % 8 = 0) := by decide

theorem witness_EncDriverCollectsEncrypt : AtRest State.reset ∧ State.reset.params.tables.ok = true ∧
    State.reset.params.rngReady = true ∧
    (List.replicate (encDriver .rng 0#64 (zeros 9)).length 2).length = (encDriver .rng 0#64 (zeros 9)).length :=
  ⟨by decide, defaultTables_ok, by decide, by simp⟩

theorem witness_DecDriverReportsDecrypt : AtRest State.reset ∧ State.reset.params.tables.ok = true ∧
    (List.replicate (decDriver (zeros 9)).length 2).length = (decDriver (zeros 9)).length :=
  ⟨by decide, defaultTables_ok, by simp⟩

end Sys2Proof.Tests
end

section
/-! The state (10_state.md): the fields and reserved bits of STATUS (R26), and what reset gives (R37). -/

namespace Sys2Proof.Machine

/-! ### STATUS -/

/-- The reserved bit between MODE and ERR reads 0 (10_state.md R26). -/
theorem statusWord_bit3 (e : Engine) : (statusWord e).getLsbD 3 = false :=
  statusWord_getLsbD e (i := 3) (by omega)

/-- The reserved bits above ERR read 0 (R26). -/
theorem statusWord_upper (e : Engine) : (statusWord e).extractLsb' 8 56 = 0#56 := by
  apply BitVec.eq_of_getLsbD_eq
  intro i hi
  have hbit : (statusWord e).getLsbD (8 + i) = e.err.getLsbD (4 + i) := by
    rw [statusWord_getLsbD e (by omega), if_neg (by omega), if_neg (by omega), if_neg (by omega)]
    congr 1
    omega
  simp [hbit]

/-- STATUS reads 0 after reset (R37). -/
@[simp] theorem statusWord_reset : statusWord Engine.reset = 0#64 := by decide

/-- Host writes to STATUS are ignored (R26). -/
@[simp] theorem writePort_status (v : BitVec 64) (s : State) : writePort 1#5 v s = s :=
  writePort_other s v (by decide) (by decide)

/-- Settles O35: each field of the STATUS word is read off its bits, and STATUS is none of the two indices that a write
changes. -/
theorem statusHasTheseFields : Obligations.StatusHasTheseFields := by
  unfold Obligations.StatusHasTheseFields
  refine ⟨by simp, fun s v => ?_⟩
  rw [readPort_status]
  refine ⟨rfl, statusWord_busy _, statusWord_mode _, ?codes, statusWord_bit3 _, statusWord_err _,
    statusWord_upper _, writePort_status v s⟩
  case codes => cases s.mode <;> rfl

/-! ### Reset -/

/-- The step that asserts reset, in any state (70_reset_and_hazards.md R230). -/
theorem step_assertReset {s : State} {rest : List Turn} (h : s.turns = .assertReset :: rest) :
    step s = .next (assertReset { s with turns := rest }) :=
  step_turn h

/-- Settles O37: the listed values are `Engine.reset`'s, and asserting reset puts `Engine.reset` in the place of the
registers alone. -/
theorem resetGivesTheseValues : Obligations.ResetGivesTheseValues := by
  unfold Obligations.ResetGivesTheseValues
  refine ⟨rfl, rfl, rfl, rfl, rfl, rfl, rfl, rfl, rfl, rfl, rfl, by simp, fun s rest h => ?_⟩
  exact ⟨_, step_assertReset h, by simp, by simp⟩

end Sys2Proof.Machine
end

section
/-! The host port (20_memory.md): the reserved indices and the alignment of ENGINE_BASE (R55). -/

namespace Sys2Proof.Machine

/-- The six registers have the indices below 6, so a reserved index reads 0 (20_memory.md R55). -/
theorem readPort_reserved {idx : BitVec 5} (e : Engine) (h : 6 ≤ idx.toNat) : readPort idx e = 0#64 := by
  unfold readPort
  split
  case h_7 => rfl
  all_goals omega

/-- CMD and DIN, the indices that a write changes, are not reserved (R55). -/
theorem writePort_reserved {idx : BitVec 5} (v : BitVec 64) (s : State) (h : 6 ≤ idx.toNat) : writePort idx v s = s :=
  writePort_other s v (by bv_omega) (by bv_omega)

/-- The low byte of ENGINE_BASE is not a parameter: it is 0 (R55). -/
@[simp] theorem engineBase_aligned (p : Params) : p.engineBase.extractLsb' 0 8 = 0#8 :=
  BitVec.extractLsb'_append_eq_right

/-- Settles O34: a reserved index is none of the registers' indices, and ENGINE_BASE ends in eight zero bits. -/
theorem reservedIndicesReadZeroIgnoreWrites : Obligations.ReservedIndicesReadZeroIgnoreWrites := by
  unfold Obligations.ReservedIndicesReadZeroIgnoreWrites
  exact ⟨fun _ v s h => ⟨readPort_reserved s.toEngine h, writePort_reserved v s h⟩, engineBase_aligned⟩

end Sys2Proof.Machine
end

section
/-! Illegal words (30_encoding.md R76 to R78): the decoder and the opcode table accept the same words, so a word is
illegal exactly where no row accepts it. -/

namespace Sys2Proof

/-! ### What the decoder answers comes from the table -/

/-- The case distinction on OP answers a well-formed command, and the command's word has the fields read (R76, R77). -/
theorem decodeOp_instr {op len : BitVec 4} {sel : BitVec 2} {i : Instr} (h : decodeOp op len sel = .instr i) :
    i.wf = true ∧ encode i = commandWord sel len op := by
  have hop : op = BitVec.ofNat 4 op.toNat := by simp
  unfold decodeOp at h
  split at h
  case h_12 => cases h
  all_goals
    rename_i hval
    rw [hval] at hop
    subst hop
  case h_1 | h_6 | h_10 | h_11 =>
    obtain ⟨rfl, rfl, rfl⟩ := decodePlain_instr h
    exact ⟨rfl, rfl⟩
  case h_2 | h_7 =>
    obtain ⟨rfl, ⟨rfl, rfl⟩ | ⟨rfl, rfl⟩⟩ := decodeChoice_instr h <;> exact ⟨rfl, rfl⟩
  case h_3 | h_4 | h_5 =>
    obtain ⟨rfl, hok, rfl⟩ := decodeCount_instr h
    exact ⟨hok, by simp [encode]⟩
  case h_8 | h_9 =>
    obtain ⟨rfl, key, rfl, rfl⟩ := decodeKey_instr h
    exact ⟨rfl, rfl⟩

/-- A decoded command has no reserved bit (R74). -/
theorem decode_instr_fields {w : BitVec 64} {i : Instr} (h : decode w = .instr i) :
    rsvField w = 0#54 ∧ decodeOp (opField w) (lenField w) (selField w) = .instr i := by
  unfold decode at h
  split at h
  · cases h
  · exact ⟨not_not.mp ‹_›, h⟩

/-- Every decoded word is the word of the command it decodes to (R77). -/
theorem encode_of_decode {w : BitVec 64} {i : Instr} (h : decode w = .instr i) : i.wf = true ∧ encode i = w := by
  obtain ⟨hrsv, hop⟩ := decode_instr_fields h
  obtain ⟨hwf, henc⟩ := decodeOp_instr hop
  exact ⟨hwf, henc.trans (commandWord_fields hrsv)⟩

/-- The word of a well-formed command is accepted by the command's row of the table (R76). -/
theorem row_accepts_encode (i : Instr) : Laws.TableRow.Statement i := by
  cases i with
  | nop => exact Laws.TableRow.nop
  | encStart src => exact Laws.TableRow.encStart src
  | encBlock len => exact Laws.TableRow.encBlock len
  | decStart len => exact Laws.TableRow.decStart len
  | decBlock len => exact Laws.TableRow.decBlock len
  | abort => exact Laws.TableRow.abort
  | perm table => exact Laws.TableRow.perm table
  | fwd key => exact Laws.TableRow.fwd key
  | rev key => exact Laws.TableRow.rev key
  | cenc => exact Laws.TableRow.cenc
  | cdec => exact Laws.TableRow.cdec

theorem row_accepts_of_decode {w : BitVec 64} {i : Instr} (h : decode w = .instr i) :
    i.row ∈ opcodeTable ∧ i.row.accepts w = true := by
  obtain ⟨hwf, rfl⟩ := encode_of_decode h
  exact row_accepts_encode i hwf

/-! ### What the table accepts is decoded -/

/-- What a row says of a word: the masked bits and the ranges of the free fields (R76). -/
theorem accepts_iff {r : OpcodeRow} {w : BitVec 64} : r.accepts w = true ↔
    w &&& r.mask = r.pattern ∧ r.lenFrom ≤ (lenField w).toNat ∧ (lenField w).toNat ≤ r.lenTo ∧
      r.selFrom ≤ (selField w).toNat ∧ (selField w).toNat ≤ r.selTo := by
  simp only [OpcodeRow.accepts, Bool.and_eq_true, beq_iff_eq, decide_eq_true_eq, and_assoc]

/-- Every row's mask covers RSV and OP, and no row's pattern has a reserved bit (R76). -/
theorem opcodeTable_masks : ∀ r ∈ opcodeTable,
    rsvField r.mask = BitVec.allOnes 54 ∧ opField r.mask = BitVec.allOnes 4 ∧ rsvField r.pattern = 0#54 := by
  decide

/-- A word that a row accepts has no reserved bit and the row's OP (R74, R76). -/
theorem fields_of_accepts {r : OpcodeRow} {w : BitVec 64} (hr : r ∈ opcodeTable) (h : r.accepts w = true) :
    rsvField w = 0#54 ∧ opField w = opField r.pattern := by
  obtain ⟨hrsv, hop, hzero⟩ := opcodeTable_masks r hr
  obtain ⟨hmask, -⟩ := accepts_iff.mp h
  constructor
  · calc rsvField w = rsvField w &&& rsvField r.mask := by rw [hrsv, BitVec.and_allOnes]
      _ = rsvField (w &&& r.mask) := BitVec.extractLsb'_and.symm
      _ = 0#54 := by rw [hmask, hzero]
  · calc opField w = opField w &&& opField r.mask := by rw [hop, BitVec.and_allOnes]
      _ = opField (w &&& r.mask) := BitVec.extractLsb'_and.symm
      _ = opField r.pattern := by rw [hmask]

theorem decodePlain_of_range (c : Instr) {len : BitVec 4} {sel : BitVec 2} (hlen : len.toNat ≤ 0)
    (hsel : sel.toNat ≤ 0) : ∃ i, decodePlain c len sel = .instr i := by
  obtain rfl : len = 0#4 := by bv_omega
  obtain rfl : sel = 0#2 := by bv_omega
  exact ⟨c, rfl⟩

theorem decodeChoice_of_range (zero one : Instr) {len : BitVec 4} {sel : BitVec 2} (hlen : len.toNat ≤ 0)
    (hsel : sel.toNat ≤ 1) : ∃ i, decodeChoice zero one len sel = .instr i := by
  obtain rfl : len = 0#4 := by bv_omega
  obtain rfl | rfl : sel = 0#2 ∨ sel = 1#2 := by bv_omega
  · exact ⟨zero, rfl⟩
  · exact ⟨one, rfl⟩

theorem decodeKey_of_range (cmd : KeySel → Instr) {len : BitVec 4} {sel : BitVec 2} (hlen : len.toNat ≤ 0)
    (hsel : 1 ≤ sel.toNat) : ∃ i, decodeKey cmd len sel = .instr i := by
  obtain rfl : len = 0#4 := by bv_omega
  obtain rfl | rfl | rfl : sel = 1#2 ∨ sel = 2#2 ∨ sel = 3#2 := by bv_omega
  · exact ⟨cmd .k1, rfl⟩
  · exact ⟨cmd .k2, rfl⟩
  · exact ⟨cmd .k3, rfl⟩

theorem decodeCount_of_range (cmd : Nat → Instr) {ok : Nat → Bool} {len : BitVec 4} {sel : BitVec 2}
    (hlen : ok len.toNat = true) (hsel : sel.toNat ≤ 0) : ∃ i, decodeCount cmd ok len sel = .instr i := by
  obtain rfl : sel = 0#2 := by bv_omega
  exact ⟨cmd len.toNat, if_pos ⟨hlen, rfl⟩⟩

/-- With the OP of a row and LEN and SEL in the row's ranges there is a command (R76, R77). -/
theorem decodeOp_of_range {r : OpcodeRow} (hr : r ∈ opcodeTable) {len : BitVec 4} {sel : BitVec 2}
    (hlen : r.lenFrom ≤ len.toNat ∧ len.toNat ≤ r.lenTo) (hsel : r.selFrom ≤ sel.toNat ∧ sel.toNat ≤ r.selTo) :
    ∃ i, decodeOp (opField r.pattern) len sel = .instr i := by
  have hblock {n : Nat} (h : 1 ≤ n ∧ n ≤ 8) : blockLenOk n = true := by simpa [blockLenOk] using h
  have hiv {n : Nat} (h : n ≤ 8) : ivLenOk n = true := by simpa [ivLenOk] using h
  simp only [opcodeTable, List.mem_cons, List.not_mem_nil, or_false] at hr
  rcases hr with rfl | rfl | rfl | rfl | rfl | rfl | rfl | rfl | rfl | rfl | rfl
  · exact decodePlain_of_range .nop hlen.2 hsel.2
  · exact decodeChoice_of_range (.encStart .rng) (.encStart .din) hlen.2 hsel.2
  · exact decodeCount_of_range .encBlock (hblock hlen) hsel.2
  · exact decodeCount_of_range .decStart (hiv hlen.2) hsel.2
  · exact decodeCount_of_range .decBlock (hblock hlen) hsel.2
  · exact decodePlain_of_range .abort hlen.2 hsel.2
  · exact decodeChoice_of_range (.perm .ip) (.perm .ipinv) hlen.2 hsel.2
  · exact decodeKey_of_range .fwd hlen.2 hsel.1
  · exact decodeKey_of_range .rev hlen.2 hsel.1
  · exact decodePlain_of_range .cenc hlen.2 hsel.2
  · exact decodePlain_of_range .cdec hlen.2 hsel.2

theorem decode_of_accepts {r : OpcodeRow} {w : BitVec 64} (hr : r ∈ opcodeTable) (h : r.accepts w = true) :
    ∃ i, decode w = .instr i := by
  obtain ⟨hrsv, hop⟩ := fields_of_accepts hr h
  obtain ⟨-, hlenFrom, hlenTo, hselFrom, hselTo⟩ := accepts_iff.mp h
  rw [← commandWord_fields hrsv, decode_commandWord, hop]
  exact decodeOp_of_range hr ⟨hlenFrom, hlenTo⟩ ⟨hselFrom, hselTo⟩

/-- A word is a command exactly where a row of the table accepts it (R76, R77). -/
theorem decode_instr_iff (w : BitVec 64) : (∃ i, decode w = .instr i) ↔ ∃ r ∈ opcodeTable, r.accepts w = true :=
  ⟨fun ⟨_, h⟩ => ⟨_, row_accepts_of_decode h⟩, fun ⟨_, hr, h⟩ => decode_of_accepts hr h⟩

/-! ### Illegal words -/

theorem decode_illegal_iff_not_instr (w : BitVec 64) :
    (∃ why, decode w = .illegal why) ↔ ¬ ∃ i, decode w = .instr i := by
  cases decode w <;> simp

/-- A word is illegal exactly where no row of the table accepts it (R77, R78). -/
theorem decode_illegal_iff (w : BitVec 64) :
    (∃ why, decode w = .illegal why) ↔ ∀ r ∈ opcodeTable, r.accepts w = false := by
  rw [decode_illegal_iff_not_instr, decode_instr_iff]
  simp

/-- The rows have the OPs 0 to 10 (R75). -/
theorem opcodeTable_op_lt : ∀ r ∈ opcodeTable, (opField r.pattern).toNat < 11 := by decide

/-- No row accepts a word with OP 11 to 15 or with a reserved bit (R74, R75). -/
theorem not_accepts_of_op_or_rsv {w : BitVec 64} (h : 11 ≤ (opField w).toNat ∨ rsvField w ≠ 0#54) :
    ∀ r ∈ opcodeTable, r.accepts w = false := by
  intro r hr
  by_contra hacc
  obtain ⟨hrsv, hop⟩ := fields_of_accepts hr (by simpa using hacc)
  rcases h with h | h
  · rw [hop] at h
    exact absurd h (Nat.not_le.mpr (opcodeTable_op_lt r hr))
  · exact h hrsv

/-- The three grounds of R78: the first two are cases of the third, that no row of the table accepts the word. -/
theorem decode_illegal_grounds (w : BitVec 64) : (∃ why, decode w = .illegal why) ↔
    (11 ≤ (opField w).toNat ∨ rsvField w ≠ 0#54 ∨ ∀ r ∈ opcodeTable, r.accepts w = false) := by
  rw [decode_illegal_iff, ← or_assoc]
  exact ⟨.inr, fun h => h.elim not_accepts_of_op_or_rsv id⟩

/-! ### Words with a byte count -/

/-- A command word as a number (R70). -/
theorem commandWord_toNat (sel : BitVec 2) (len op : BitVec 4) :
    (commandWord sel len op).toNat = op.toNat + 16 * len.toNat + 256 * sel.toNat := by
  unfold commandWord
  rw [BitVec.toNat_append, BitVec.toNat_append, BitVec.toNat_append, ← Nat.shiftLeft_add_eq_or_of_lt op.isLt,
    ← Nat.shiftLeft_add_eq_or_of_lt len.isLt, ← Nat.shiftLeft_add_eq_or_of_lt sel.isLt]
  simp only [Nat.shiftLeft_eq, BitVec.toNat_ofNat]
  omega

/-- The number `op + 16 n` is the command word with the byte count `n` in LEN and SEL = 0 (R70, R72). -/
theorem decode_countWord {op n : Nat} (hop : op < 16) (hn : n < 16) :
    decode (BitVec.ofNat 64 (op + 16 * n)) = decodeOp (BitVec.ofNat 4 op) (BitVec.ofNat 4 n) 0#2 := by
  have hword : BitVec.ofNat 64 (op + 16 * n) = commandWord 0#2 (BitVec.ofNat 4 n) (BitVec.ofNat 4 op) := by
    apply BitVec.eq_of_toNat_eq
    rw [commandWord_toNat]
    simp only [BitVec.toNat_ofNat]
    omega
  rw [hword, decode_commandWord]

theorem decodeCount_of_ok (cmd : Nat → Instr) {ok : Nat → Bool} {n : Nat} (hn : n ≤ 8) (hok : ok n = true) :
    decodeCount cmd ok (BitVec.ofNat 4 n) 0#2 = .instr (cmd n) := by
  simp [decodeCount, toNat_ofNat_len hn, hok]

/-- DEC_START takes every count from 0 to 8, the short ones included (R78). -/
theorem decode_decStart {n : Nat} (h : n ≤ 8) : decode (BitVec.ofNat 64 (3 + 16 * n)) = .instr (.decStart n) := by
  rw [decode_countWord (by omega) (by omega)]
  exact decodeCount_of_ok .decStart h (by simpa [ivLenOk] using h)

/-- DEC_BLOCK takes every count from 1 to 8, the short ones included (R78). -/
theorem decode_decBlock {n : Nat} (h1 : 1 ≤ n) (h8 : n ≤ 8) :
    decode (BitVec.ofNat 64 (4 + 16 * n)) = .instr (.decBlock n) := by
  rw [decode_countWord (by omega) (by omega)]
  exact decodeCount_of_ok .decBlock h8 (by simp [blockLenOk, h1, h8])

end Sys2Proof

namespace Sys2Proof.Machine

/-- The step that completes an illegal word without an overrun (60_exceptions.md R201, 70_reset_and_hazards.md R234). -/
theorem step_illegal {s : State} {rest : List Turn} {why : Illegal} (hturns : s.turns = .engine :: rest)
    (hbusy : s.busy = true) (hovr : s.ovr = false) (hdec : decode s.lcmd = .illegal why) :
    step s = .next { recordError .illegalCmd { s with turns := rest } with busy := false } := by
  calc step s = engineMove { s with turns := rest } := step_turn hturns
    _ = complete { s with turns := rest } := engineMove_busy hbusy
    _ = .next (finish (recordError .illegalCmd { s with turns := rest })) := complete_next (execWord_illegal _ hdec)
    _ = _ := by rw [finish_of_not_ovr (by simpa using hovr)]

/-- Settles O5: the engine's move runs the illegal word to `recordError` alone; the decoder answers Illegal exactly
where no row of the table accepts the word, which covers the other two grounds. -/
theorem illegalWordOnlyRecordsIllegalCmd : Obligations.IllegalWordOnlyRecordsIllegalCmd := by
  unfold Obligations.IllegalWordOnlyRecordsIllegalCmd
  exact ⟨fun _ _ _ hturns hbusy hovr hdec => step_illegal hturns hbusy hovr hdec, decode_illegal_grounds,
    fun _ h7 => decode_decStart (by omega), fun _ h1 h7 => decode_decBlock h1 (by omega)⟩

end Sys2Proof.Machine
end

section
/-! The bit permutation (40_permutation.md R102, R103) and the command that applies it, PERM (R104). -/

namespace Sys2Proof.Machine

/-! ### The bit permutation -/

/-- `r[63 - i] = v[64 - T[i]]`, for an entry that names a position (R102). -/
theorem permuteReg_getLsbD (v : BitVec 64) {table : List Nat} (hlen : table.length = 64) {i : Nat} (hi : i < 64)
    (hentry : 1 ≤ table.getD i 0) : (permuteReg v table).getLsbD (63 - i) = v.getLsbD (64 - table.getD i 0) := by
  have hbit : 63 - (table.getD i 0 - 1) = 64 - table.getD i 0 := by omega
  calc (permuteReg v table).getLsbD (63 - i) = v.getLsbD (63 - (table.getD i 0 - 1)) :=
        logicalBitOf_permuteReg v hlen hi
    _ = v.getLsbD (64 - table.getD i 0) := by rw [hbit]

/-- A permutation moves bits and makes none: a block whose bits are all equal is kept (R104). -/
theorem permuteReg_of_bits_eq {v : BitVec 64} {table : List Nat} {b : Bool} (h : tableRange table = true)
    (hv : ∀ p, p < 64 → logicalBitOf v p = b) : permuteReg v table = v := by
  apply block_ext
  intro i hi
  obtain ⟨hlow, hhigh⟩ := tableRange_getD h hi
  rw [logicalBitOf_permuteReg v (tableRange_length h) hi, hv _ (by omega), hv i hi]

theorem permuteReg_zero {table : List Nat} (h : tableRange table = true) : permuteReg 0#64 table = 0#64 :=
  permuteReg_of_bits_eq (b := false) h fun _ _ => BitVec.getLsbD_zero

theorem permuteReg_allOnes {table : List Nat} (h : tableRange table = true) :
    permuteReg (BitVec.allOnes 64) table = BitVec.allOnes 64 :=
  permuteReg_of_bits_eq (b := true) h fun p _ => by
    rw [logicalBitOf, BitVec.getLsbD_allOnes, decide_eq_true (by omega)]

/-- Permuting by `t` and then by a table `u` with `t[u[i] - 1] = i + 1` gives the block back (R102, R103 (c)). -/
theorem permuteReg_permuteReg_of_undoes {t u : List Nat} (ht : tableRange t = true) (hu : tableRange u = true)
    (hundo : tableUndoes t u = true) (v : BitVec 64) : permuteReg (permuteReg v t) u = v := by
  apply block_ext
  intro i hi
  obtain ⟨hlow, hhigh⟩ := tableRange_getD hu hi
  calc logicalBitOf (permuteReg (permuteReg v t) u) i
      = logicalBitOf (permuteReg v t) (u.getD i 0 - 1) := logicalBitOf_permuteReg _ (tableRange_length hu) hi
    _ = logicalBitOf v (t.getD (u.getD i 0 - 1) 0 - 1) :=
        logicalBitOf_permuteReg v (tableRange_length ht) (by omega)
    _ = logicalBitOf v i := by rw [tableUndoes_getD hundo hi, Nat.add_sub_cancel]

/-! ### PERM -/

/-- Either table that SEL names has 64 entries in 1..64 (R103 (a)). -/
theorem tableRange_tableOf {t : Tables} (h : t.ok = true) (sel : TableSel) : tableRange (tableOf t sel) = true := by
  obtain ⟨⟨hip, hipinv⟩, -⟩ := tables_ok h
  cases sel with
  | ip => exact hip
  | ipinv => exact hipinv

/-- PERM writes the permuted block to DOUT (R104). -/
theorem exec_perm (sel : TableSel) (s : State) :
    exec (.perm sel) s = .next { s with dout := permuteReg s.ldin (tableOf s.params.tables sel) } := rfl

/-- `perm ip` and then `perm ipinv` on its result (R104). -/
theorem exec_perm_ip_ipinv {s t : State} (hok : s.params.tables.ok = true) (h : exec (.perm .ip) s = .next t) :
    exec (.perm .ipinv) { t with ldin := t.dout } = .next { t with ldin := t.dout, dout := s.ldin } := by
  obtain ⟨⟨hip, hipinv⟩, hundo, -⟩ := tables_ok hok
  obtain rfl := execPerm_cases h
  have hback : permuteReg (permuteReg s.ldin s.params.tables.ip) s.params.tables.ipinv = s.ldin :=
    permuteReg_permuteReg_of_undoes hip hipinv hundo s.ldin
  simp only [exec_perm, tableOf, hback]

/-- The words with OP = 6 that are commands (30_encoding.md R76). -/
theorem word_of_decode_op6 {w : BitVec 64} {i : Instr} (hop : opField w = 6#4) (h : decode w = .instr i) :
    w = 0x6#64 ∨ w = 0x106#64 := by
  obtain ⟨hrsv, hdec⟩ := decode_instr_fields h
  rw [hop] at hdec
  rw [← commandWord_fields hrsv, hop]
  obtain ⟨hlen, ⟨-, hsel⟩ | ⟨-, hsel⟩⟩ := decodeChoice_instr hdec
  · left
    rw [hlen, hsel]
    rfl
  · right
    rw [hlen, hsel]
    rfl

/-- A word that is no command records ILLEGAL_CMD (30_encoding.md R78, 60_exceptions.md R201). -/
theorem execWord_not_instr {w : BitVec 64} (s : State) (h : ¬ ∃ i, decode w = .instr i) :
    execWord w s = .next { s with err := if s.err = 0#4 then 5#4 else s.err, mode := .idle } := by
  obtain ⟨why, hdec⟩ := (decode_illegal_iff_not_instr w).mpr h
  exact execWord_illegal s hdec

/-- Settles O9: the result is `permuteReg` of the latched operand by the table that SEL names; the round trip is
R103 (c), and the other words decode to no command. -/
theorem permWritesThePermutedBlock : Obligations.PermWritesThePermutedBlock := by
  unfold Obligations.PermWritesThePermutedBlock
  refine ⟨by decide, fun s sel hok => ?result, fun s t hok h => exec_perm_ip_ipinv hok h,
    fun w s hop hip hipinv => ?otherWords⟩
  case result =>
    have hrange := tableRange_tableOf hok sel
    refine ⟨_, exec_perm sel s, fun i hi => ?_, fun hzero => ?_, fun hones => ?_⟩
    · obtain ⟨hentry, -⟩ := tableRange_getD hrange hi
      exact permuteReg_getLsbD s.ldin (tableRange_length hrange) hi hentry
    · rw [hzero, permuteReg_zero hrange]
    · rw [hones]
      exact permuteReg_allOnes hrange
  case otherWords =>
    refine execWord_not_instr s fun ⟨i, hdec⟩ => ?_
    exact (word_of_decode_op6 hop hdec).elim hip hipinv

end Sys2Proof.Machine
end

section
/-! The single stage and the cascade (41_stage_cascade.md R120, R121, R124, R125), and their commands FWD, REV, CENC
and CDEC (R127 to R130). -/

namespace Sys2Proof.Machine

/-! ### The stage and the cascade keep the block -/

/-- A forward stage permutes by IP and back by IPINV (R120, 40_permutation.md R103 (c)). -/
theorem forward_eq_self {t : Tables} (h : t.ok = true) (b key : BitVec 64) : forward t b key = b := by
  obtain ⟨⟨hip, hipinv⟩, hundo, -⟩ := tables_ok h
  exact permuteReg_permuteReg_of_undoes hip hipinv hundo b

/-- A reverse stage permutes by IPINV and back by IP (R121, 40_permutation.md R103 (c)). -/
theorem reverse_eq_self {t : Tables} (h : t.ok = true) (b key : BitVec 64) : reverse t b key = b := by
  obtain ⟨⟨hip, hipinv⟩, -, hundo⟩ := tables_ok h
  exact permuteReg_permuteReg_of_undoes hipinv hip hundo b

theorem cascadeEnc_eq_self {t : Tables} (h : t.ok = true) (b : BitVec 64) : cascadeEnc t b = b := by
  simp only [cascadeEnc, forward_eq_self h]

theorem cascadeDec_eq_self {t : Tables} (h : t.ok = true) (b : BitVec 64) : cascadeDec t b = b := by
  simp only [cascadeDec, reverse_eq_self h]

/-! ### The commands -/

/-- FWD writes the forward stage's block and counts one stage (R127). -/
theorem exec_fwd (key : KeySel) (s : State) : exec (.fwd key) s = .next { s with
    dout := forward s.params.tables s.ldin (Config.key key), stgcnt := s.stgcnt + 1#32 } := rfl

/-- REV writes the reverse stage's block and counts one stage (R128). -/
theorem exec_rev (key : KeySel) (s : State) : exec (.rev key) s = .next { s with
    dout := reverse s.params.tables s.ldin (Config.key key), stgcnt := s.stgcnt + 1#32 } := rfl

/-- CENC writes the cascade's block and counts three stages (R129). -/
theorem exec_cenc (s : State) : exec .cenc s = .next { s with
    dout := cascadeEnc s.params.tables s.ldin, stgcnt := s.stgcnt + 3#32 } := rfl

/-- CDEC writes the reverse cascade's block and counts three stages (R130). -/
theorem exec_cdec (s : State) : exec .cdec s = .next { s with
    dout := cascadeDec s.params.tables s.ldin, stgcnt := s.stgcnt + 3#32 } := rfl

/-! ### Their words -/

/-- A command's word whose OP takes a key number has LEN 0 and the key's SEL (30_encoding.md R76, R77). -/
theorem word_of_decode_key {w : BitVec 64} {i : Instr} {op : BitVec 4} {cmd : KeySel → Instr}
    (hrow : ∀ len sel, decodeOp op len sel = decodeKey cmd len sel) (hop : opField w = op) (h : decode w = .instr i) :
    ∃ key : KeySel, w = commandWord key.sel 0#4 op := by
  obtain ⟨hrsv, hdec⟩ := decode_instr_fields h
  rw [hop, hrow] at hdec
  obtain ⟨hlen, key, -, hsel⟩ := decodeKey_instr hdec
  exact ⟨key, by rw [← commandWord_fields hrsv, hlen, hsel, hop]⟩

/-- A command's word whose OP takes no operand field has LEN 0 and SEL 0 (30_encoding.md R76, R77). -/
theorem word_of_decode_plain {w : BitVec 64} {i cmd : Instr} {op : BitVec 4}
    (hrow : ∀ len sel, decodeOp op len sel = decodePlain cmd len sel) (hop : opField w = op) (h : decode w = .instr i) :
    w = commandWord 0#2 0#4 op := by
  obtain ⟨hrsv, hdec⟩ := decode_instr_fields h
  rw [hop, hrow] at hdec
  obtain ⟨-, hlen, hsel⟩ := decodePlain_instr hdec
  rw [← commandWord_fields hrsv, hlen, hsel, hop]

/-- The words with OP 7 or 8 that are commands (30_encoding.md R76). -/
theorem word_of_decode_fwd_rev {w : BitVec 64} {i : Instr} (hop : opField w = 7#4 ∨ opField w = 8#4)
    (h : decode w = .instr i) : w ∈ [0x107#64, 0x207#64, 0x307#64, 0x108#64, 0x208#64, 0x308#64] := by
  rcases hop with hop | hop
  · obtain ⟨key, rfl⟩ := word_of_decode_key (cmd := .fwd) (fun _ _ => rfl) hop h
    cases key <;> decide
  · obtain ⟨key, rfl⟩ := word_of_decode_key (cmd := .rev) (fun _ _ => rfl) hop h
    cases key <;> decide

/-- The words with OP 9 or 10 that are commands (30_encoding.md R76). -/
theorem word_of_decode_cenc_cdec {w : BitVec 64} {i : Instr} (hop : opField w = 9#4 ∨ opField w = 10#4)
    (h : decode w = .instr i) : w = 0x9#64 ∨ w = 0xA#64 :=
  hop.imp (fun hop => (word_of_decode_plain (cmd := .cenc) (fun _ _ => rfl) hop h).trans rfl)
    (fun hop => (word_of_decode_plain (cmd := .cdec) (fun _ _ => rfl) hop h).trans rfl)

/-- Settles O13: each command's result is a stage of the latched operand, which is the operand; a word with OP 7 or 8
that decodes is one of the six. -/
theorem fwdRevReturnTheBlock : Obligations.FwdRevReturnTheBlock := by
  unfold Obligations.FwdRevReturnTheBlock
  refine ⟨by decide, fun s key hok => ⟨?fwd, ?rev⟩, fun w s hop hw => ?otherWords⟩
  case fwd => rw [exec_fwd, forward_eq_self hok]
  case rev => rw [exec_rev, reverse_eq_self hok]
  case otherWords => exact execWord_not_instr s fun ⟨_, hdec⟩ => hw (word_of_decode_fwd_rev hop hdec)

/-- Settles O14: each command's result is the cascade of the latched operand, which is the operand; a word with OP 9 or
10 that decodes is one of the two. -/
theorem cencCdecReturnTheBlock : Obligations.CencCdecReturnTheBlock := by
  unfold Obligations.CencCdecReturnTheBlock
  refine ⟨by decide, fun s hok => ⟨?cenc, ?cdec⟩, fun w s hop hcenc hcdec => ?otherWords⟩
  case cenc => rw [exec_cenc, cascadeEnc_eq_self hok]
  case cdec => rw [exec_cdec, cascadeDec_eq_self hok]
  case otherWords =>
    exact execWord_not_instr s fun ⟨_, hdec⟩ => (word_of_decode_cenc_cdec hop hdec).elim hcenc hcdec

end Sys2Proof.Machine
end

section
/-! The session commands (42_chaining.md R149 to R152) and the slices of a message (R142). -/

namespace Sys2Proof

/-! ### Their words -/

/-- The legal counts of ENC_BLOCK and DEC_BLOCK (30_encoding.md R72). -/
theorem blockLenOk_iff {n : Nat} : blockLenOk n = true ↔ 1 ≤ n ∧ n ≤ 8 := by
  simp only [blockLenOk, Bool.and_eq_true, decide_eq_true_eq]

/-- The legal counts of DEC_START (30_encoding.md R72). -/
theorem ivLenOk_iff {n : Nat} : ivLenOk n = true ↔ n ≤ 8 := by simp only [ivLenOk, decide_eq_true_eq]

/-- ENC_BLOCK takes every count from 1 to 8 (30_encoding.md R76). -/
theorem decode_encBlock {n : Nat} (h1 : 1 ≤ n) (h8 : n ≤ 8) :
    decode (BitVec.ofNat 64 (2 + 16 * n)) = .instr (.encBlock n) := by
  rw [decode_countWord (by omega) (by omega)]
  exact decodeCount_of_ok .encBlock h8 (blockLenOk_iff.mpr ⟨h1, h8⟩)

/-- A command word with SEL = 0 is the number `op + 16 len` (30_encoding.md R70). -/
theorem commandWord_sel_zero (len op : BitVec 4) :
    commandWord 0#2 len op = BitVec.ofNat 64 (op.toNat + 16 * len.toNat) := by
  apply BitVec.eq_of_toNat_eq
  rw [commandWord_toNat, BitVec.toNat_ofNat, BitVec.toNat_ofNat]
  omega

/-- A command's word whose OP takes a byte count has a legal count in LEN and SEL 0 (30_encoding.md R76, R77). -/
theorem word_of_decode_count {w : BitVec 64} {i : Instr} {op : BitVec 4} {cmd : Nat → Instr} {ok : Nat → Bool}
    (hrow : ∀ len sel, decodeOp op len sel = decodeCount cmd ok len sel) (hop : opField w = op)
    (h : decode w = .instr i) : ∃ n, ok n = true ∧ w = BitVec.ofNat 64 (op.toNat + 16 * n) := by
  obtain ⟨hrsv, hdec⟩ := decode_instr_fields h
  rw [hop, hrow] at hdec
  obtain ⟨-, hok, hsel⟩ := decodeCount_instr hdec
  exact ⟨(lenField w).toNat, hok, by rw [← commandWord_sel_zero, ← hsel, ← hop, commandWord_fields hrsv]⟩

/-- A command's word whose OP takes a choice has LEN 0 and SEL 0 or 1 (30_encoding.md R76, R77). -/
theorem word_of_decode_choice {w : BitVec 64} {i zero one : Instr} {op : BitVec 4}
    (hrow : ∀ len sel, decodeOp op len sel = decodeChoice zero one len sel) (hop : opField w = op)
    (h : decode w = .instr i) : w = commandWord 0#2 0#4 op ∨ w = commandWord 1#2 0#4 op := by
  obtain ⟨hrsv, hdec⟩ := decode_instr_fields h
  rw [hop, hrow] at hdec
  obtain ⟨hlen, hsel⟩ := decodeChoice_instr hdec
  rw [← commandWord_fields hrsv, hlen, hop]
  exact hsel.imp (fun ⟨_, hsel⟩ => by rw [hsel]) (fun ⟨_, hsel⟩ => by rw [hsel])

end Sys2Proof

namespace Sys2Proof.Machine

/-- A word whose OP takes a byte count, and that has no legal count there, records ILLEGAL_CMD (30_encoding.md R78). -/
theorem execWord_of_no_count {w : BitVec 64} {op : BitVec 4} {cmd : Nat → Instr} {ok : Nat → Bool} (s : State)
    (hrow : ∀ len sel, decodeOp op len sel = decodeCount cmd ok len sel) (hop : opField w = op)
    (hw : ∀ n, ok n = true → w ≠ BitVec.ofNat 64 (op.toNat + 16 * n)) :
    execWord w s = .next { s with err := if s.err = 0#4 then 5#4 else s.err, mode := .idle } := by
  refine execWord_not_instr s fun ⟨_, hdec⟩ => ?_
  obtain ⟨n, hok, hword⟩ := word_of_decode_count hrow hop hdec
  exact hw n hok hword

section commands
variable {s : State} {len : Nat}

/-! ### ENC_START -/

/-- ENC_START with the IV in DIN as latched (R149). -/
theorem exec_encStart_din (s : State) : exec (.encStart .din) s = .next (openEncrypt s.ldin s) := rfl

/-- ENC_START with a draw that is answered (R148, R149). -/
theorem exec_encStart_rng (h : s.params.rngReady = true) :
    exec (.encStart .rng) s = .next (openEncrypt (drawValue s) (drawTaken s)) := if_pos h

/-! ### ENC_BLOCK -/

/-- ENC_BLOCK in an open encrypt session (R150). -/
theorem exec_encBlock_of_enc (len : Nat) (h : s.mode = .enc) :
    exec (.encBlock len) s = .next { s with
      dout := cascadeEnc s.params.tables (padReg s.ldin len ^^^ s.fb)
      fb := cascadeEnc s.params.tables (padReg s.ldin len ^^^ s.fb)
      stgcnt := s.stgcnt + 3#32
      mode := if len < 8 then .encClosed else .enc } := by
  rw [exec, execEncBlock, if_neg (not_not.mpr h), h]
  rfl

/-- ENC_BLOCK outside an open encrypt session (R150). -/
theorem exec_encBlock_of_not_enc (len : Nat) (h : s.mode ≠ .enc) :
    exec (.encBlock len) s = .next (recordError .sequence s) := if_pos h

/-! ### DEC_START -/

/-- DEC_START with a whole IV (R151). -/
theorem exec_decStart_of_ge (h : 8 ≤ len) :
    exec (.decStart len) s = .next { clearError s with fb := s.ldin, mode := .dec } := if_neg (Nat.not_lt.mpr h)

/-- DEC_START with a short IV: the code recorded is TRUNCATED_INPUT, for ERR has just been cleared (R151). -/
theorem exec_decStart_of_lt (h : len < 8) :
    exec (.decStart len) s = .next { s with err := ErrKind.truncatedInput.code, mode := .idle } := by
  rw [exec, execDecStart, if_pos h, recordError_first _ (clearError_err s)]
  rfl

/-! ### DEC_BLOCK -/

/-- DEC_BLOCK on a whole block in an open decrypt session (R152). -/
theorem exec_decBlock_of_dec_of_ge (hmode : s.mode = .dec) (hlen : 8 ≤ len) :
    exec (.decBlock len) s = .next { s with
      dout := cascadeDec s.params.tables s.ldin ^^^ s.fb, fb := s.ldin, stgcnt := s.stgcnt + 3#32 } := by
  rw [exec, execDecBlock, if_neg (not_not.mpr hmode), if_neg (Nat.not_lt.mpr hlen)]
  rfl

/-- DEC_BLOCK on a short slice in an open decrypt session (R152). -/
theorem exec_decBlock_of_dec_of_lt (hmode : s.mode = .dec) (hlen : len < 8) :
    exec (.decBlock len) s = .next (recordError .lengthMismatch s) := by
  rw [exec, execDecBlock, if_neg (not_not.mpr hmode), if_pos hlen]

/-- DEC_BLOCK outside an open decrypt session, whatever the length (R152, 60_exceptions.md R205). -/
theorem exec_decBlock_of_not_dec (len : Nat) (h : s.mode ≠ .dec) :
    exec (.decBlock len) s = .next (recordError .sequence s) := if_pos h

end commands

/-! ### The slices of a message -/

/-- Induction along a message, a slice at a time (R142). -/
theorem slices_induction {motive : List Byte → Prop} (nil : motive [])
    (slice : ∀ x, x ≠ [] → motive (x.drop 8) → motive x) (x : List Byte) : motive x := by
  by_cases hx : x = []
  · rwa [hx]
  · exact slice x hx (slices_induction nil slice (x.drop 8))
termination_by x.length
decreasing_by
  have hpos : 0 < x.length := List.length_pos_iff.mpr hx
  simp only [List.length_drop]
  omega

/-- The slices are consecutive and lose nothing (R142). -/
theorem slices_flatten (x : List Byte) : (slices x).flatten = x := by
  induction x using slices_induction with
  | nil => rfl
  | slice x hx ih => rw [slices_of_ne_nil hx, List.flatten_cons, ih, List.take_append_drop]

/-- Slice j begins at byte 8j (R142). -/
theorem slices_getElem? {x : List Byte} {j : Nat} (h : 8 * j < x.length) :
    (slices x)[j]? = some ((x.drop (8 * j)).take 8) := by
  rw [slices, List.getElem?_map, List.getElem?_range (by omega), Option.map_some]

/-- Where 8 does not divide `|x|`, the last slice has the bytes left over (R142). -/
theorem slices_getLast?_length {x : List Byte} (h : x.length % 8 ≠ 0) :
    (slices x).getLast?.map List.length = some (x.length % 8) := by
  rw [List.getLast?_eq_getElem?, slices_length, slices_getElem? (by omega), Option.map_some, List.length_take,
    List.length_drop]
  congr 1
  omega

/-! ### The statements -/

/-- Settles O15: both IV sources run `openEncrypt`; a word with OP = 1 that decodes is one of the two. -/
theorem encStartOpensWithTheIv : Obligations.EncStartOpensWithTheIv := by
  unfold Obligations.EncStartOpensWithTheIv
  refine ⟨by decide, exec_encStart_din, fun _ => exec_encStart_rng, fun w s hop hrng hdin => ?otherWords⟩
  case otherWords =>
    refine execWord_not_instr s fun ⟨_, hdec⟩ => ?_
    exact (word_of_decode_choice (fun _ _ => rfl) hop hdec).elim hrng hdin

/-- Settles O16: MODE decides between the slice's result and SEQUENCE; a word with OP = 2 that decodes has a count from
1 to 8. -/
theorem encBlockEncryptsTheSlice : Obligations.EncBlockEncryptsTheSlice := by
  unfold Obligations.EncBlockEncryptsTheSlice
  refine ⟨fun _ => decode_encBlock, fun _ len hmode _ _ => exec_encBlock_of_enc len hmode,
    fun _ len hmode _ _ => exec_encBlock_of_not_enc len hmode, fun w s hop hw => ?otherWords⟩
  case otherWords =>
    exact execWord_of_no_count (cmd := .encBlock) s (fun _ _ => rfl) hop fun n hok => (blockLenOk_iff.mp hok).elim (hw n)

/-- Settles O17: the length decides between the IV and TRUNCATED_INPUT; a word with OP = 3 that decodes has a count from
0 to 8. -/
theorem decStartTakesTheIvOrTruncated : Obligations.DecStartTakesTheIvOrTruncated := by
  unfold Obligations.DecStartTakesTheIvOrTruncated
  refine ⟨fun _ => decode_decStart, fun _ => exec_decStart_of_ge le_rfl, fun _ _ => exec_decStart_of_lt,
    fun w s hop hw => ?otherWords⟩
  case otherWords =>
    exact execWord_of_no_count (cmd := .decStart) s (fun _ _ => rfl) hop fun n hok => hw n (ivLenOk_iff.mp hok)

/-- Settles O18: MODE is checked before the length; a word with OP = 4 that decodes has a count from 1 to 8. -/
theorem decBlockDecryptsTheBlock : Obligations.DecBlockDecryptsTheBlock := by
  unfold Obligations.DecBlockDecryptsTheBlock
  refine ⟨fun _ => decode_decBlock, fun _ hmode => exec_decBlock_of_dec_of_ge hmode le_rfl,
    fun _ _ hmode _ hlen => exec_decBlock_of_dec_of_lt hmode hlen,
    fun _ len hmode _ _ => exec_decBlock_of_not_dec len hmode, fun w s hop hw => ?otherWords⟩
  case otherWords =>
    exact execWord_of_no_count (cmd := .decBlock) s (fun _ _ => rfl) hop fun n hok => (blockLenOk_iff.mp hok).elim (hw n)

/-- Settles O50: the slices concatenate to the message, by induction a slice at a time; each slice's length comes from
its position. -/
theorem slicesCutIntoEights : Obligations.SlicesCutIntoEights := by
  unfold Obligations.SlicesCutIntoEights
  refine fun x => ⟨slices_flatten x, slices_length x, fun j hj => ?whole, slices_getLast?_length,
    fun hx => hx ▸ slices_nil⟩
  case whole =>
    have hslice : (slices x).getD j [] = (x.drop (8 * j)).take 8 := by
      rw [List.getD_eq_getElem?_getD, slices_getElem? (by omega), Option.getD_some]
    refine ⟨hslice, ?_⟩
    rw [hslice, List.length_take, List.length_drop]
    omega

end Sys2Proof.Machine
end

section
/-! The control commands (43_control.md): NOP (R180) and ABORT (R181). -/

namespace Sys2Proof.Machine

section moves
variable {s : State} {rest : List Turn}

/-! ### Accept and Complete as steps (70_reset_and_hazards.md R234) -/

/-- The step of a CMD write to an engine that runs no command, out of reset. -/
theorem step_cmdWrite_accepts {w : BitVec 64} (hturns : s.turns = .write 0#5 w :: rest) (hbusy : s.busy = false)
    (hreset : s.resetLine = false) : step s = .next (accept w { s with turns := rest }) := by
  calc step s = transact { s with turns := rest } (writePort 0#5 w { s with turns := rest }) := step_turn hturns
    _ = .next (writePort 0#5 w { s with turns := rest }) := transact_next _ hreset
    _ = _ := by rw [writePort_cmd, writeCmd_idle (s := { s with turns := rest }) w hbusy]

/-- The step that completes a command whose word answers `t`. -/
theorem step_completes {t : State} (hturns : s.turns = .engine :: rest) (hbusy : s.busy = true)
    (hexec : execWord s.lcmd { s with turns := rest } = .next t) : step s = .next (finish t) := by
  calc step s = engineMove { s with turns := rest } := step_turn hturns
    _ = complete { s with turns := rest } := engineMove_busy hbusy
    _ = _ := complete_next hexec

/-- Accept, then the end of Complete with nothing between: the latches alone are written. -/
theorem finish_accept (w : BitVec 64) (hbusy : s.busy = false) (hovr : s.ovr = false) :
    finish (accept w s) = { s with lcmd := w, ldin := s.din } := by
  rw [finish_of_not_ovr (s := accept w s) hovr, ← hbusy]
  rfl

end moves

/-! ### Words without an operand field -/

/-- A word whose OP takes no operand field, and that has one or a reserved bit set, records ILLEGAL_CMD
(30_encoding.md R78). -/
theorem execWord_of_operand {w : BitVec 64} {op : BitVec 4} {cmd : Instr} (s : State)
    (hrow : ∀ len sel, decodeOp op len sel = decodePlain cmd len sel) (hop : opField w = op)
    (hw : w ≠ commandWord 0#2 0#4 op) :
    execWord w s = .next { s with err := if s.err = 0#4 then 5#4 else s.err, mode := .idle } :=
  execWord_not_instr s fun ⟨_, hdec⟩ => hw (word_of_decode_plain hrow hop hdec)

/-! ### NOP -/

/-- NOP answers the state it is given (R180). -/
theorem exec_nop (s : State) : exec .nop s = .next s := rfl

/-- The word of NOP (30_encoding.md R76). -/
theorem decode_zero : decode 0x0#64 = .instr .nop := by decide

/-- From rest, a NOP's acceptance and completion write the latches alone: BUSY rises and falls again (R180, R234). -/
theorem runSteps_nop {s : State} (rest : List Turn) (h : AtRest s) :
    runSteps 2 { s with turns := .write 0#5 0x0#64 :: .engine :: rest } =
      .next { s with turns := rest, lcmd := 0x0#64, ldin := s.din } := by
  obtain ⟨hbusy, hovr, hreset⟩ := h
  have haccept : step { s with turns := .write 0#5 0x0#64 :: .engine :: rest } =
      .next (accept 0x0#64 { s with turns := .engine :: rest }) := step_cmdWrite_accepts rfl hbusy hreset
  have hcomplete : step (accept 0x0#64 { s with turns := .engine :: rest }) =
      .next (finish (accept 0x0#64 { s with turns := rest })) :=
    step_completes rfl rfl ((execWord_instr _ decode_zero).trans (exec_nop _))
  rw [runSteps_succ 1 haccept, runSteps_succ 0 hcomplete, runSteps_zero,
    finish_accept (s := { s with turns := rest }) _ hbusy hovr]

/-- Settles O6: NOP's result is the state itself, so a run of it leaves what Accept and the end of Complete write; no
other word with OP = 0 decodes. -/
theorem nopDoesNothing : Obligations.NopDoesNothing := by
  unfold Obligations.NopDoesNothing
  refine ⟨decode_zero, exec_nop, fun _ => runSteps_nop, fun s hbusy => ?dropped, fun w s hop hw => ?otherWords⟩
  case dropped => rw [writePort_cmd, writeCmd_busy _ hbusy]
  case otherWords => exact execWord_of_operand (cmd := .nop) s (fun _ _ => rfl) hop hw

/-! ### ABORT -/

/-- ABORT clears ERR and closes the session (R181). -/
theorem exec_abort (s : State) : exec .abort s = .next { s with err := 0#4, mode := .idle } := rfl

/-- With ERR and MODE at what ABORT writes, it changes nothing (R181). -/
theorem exec_abort_idle {s : State} (hmode : s.mode = .idle) (herr : s.err = 0#4) : exec .abort s = .next s := by
  rw [exec_abort, ← hmode, ← herr]

/-- SEQUENCE recorded in an idle engine without an error (60_exceptions.md R201, R202). -/
theorem recordError_sequence_idle {s : State} (hmode : s.mode = .idle) (herr : s.err = 0#4) :
    recordError .sequence s = { s with err := 6#4 } := by
  rw [recordError_first .sequence herr, ← hmode]
  rfl

/-- After ABORT no session is open, so a block command of either kind records SEQUENCE (R181, 42_chaining.md R150,
R152). -/
theorem exec_block_of_abort {s t : State} (len : Nat) (h : exec .abort s = .next t) :
    exec (.encBlock len) t = .next { t with err := 6#4 } ∧ exec (.decBlock len) t = .next { t with err := 6#4 } := by
  obtain rfl := execAbort_cases h
  constructor
  · rw [exec_encBlock_of_not_enc len (by simp), recordError_sequence_idle rfl rfl]
  · rw [exec_decBlock_of_not_dec len (by simp), recordError_sequence_idle rfl rfl]

/-- Settles O7: ABORT's result is `clearError` with MODE = IDLE, the state in which the block commands find no session;
no other word with OP = 5 decodes. -/
theorem abortClearsErrAndCloses : Obligations.AbortClearsErrAndCloses := by
  unfold Obligations.AbortClearsErrAndCloses
  refine ⟨by decide, exec_abort, fun _ => exec_abort_idle, fun _ _ => exec_block_of_abort,
    fun w s hop hw => ?otherWords⟩
  case otherWords => exact execWord_of_operand (cmd := .abort) s (fun _ _ => rfl) hop hw

end Sys2Proof.Machine
end

section
/-! Errors (60_exceptions.md): RecordError (R201), what clears ERR (R207), and the overrun at the end of Complete
(R206). -/

namespace Sys2Proof.Machine

/-! ### RecordError (R201) -/

/-- An error over an error leaves ERR as it was. -/
theorem recordError_err_later {s : State} (k : ErrKind) (h : s.err ≠ errNone) : (recordError k s).err = s.err :=
  if_neg h

/-- A second error finds the session closed and ERR set, so it changes nothing. -/
@[simp] theorem recordError_recordError (k k' : ErrKind) (s : State) :
    recordError k' (recordError k s) = recordError k s :=
  recordError_later k' (recordError_err_ne s k)

/-- Settles O27: the equations of `recordError`, and of the commands' branches that answer it. -/
theorem recordErrorKeepsTheFirst : Obligations.RecordErrorKeepsTheFirst := by
  unfold Obligations.RecordErrorKeepsTheFirst
  refine ⟨fun k s => ⟨rfl, fun k' => recordError_recordError k k' s⟩, fun s len => ?commands⟩
  case commands =>
    exact ⟨exec_encBlock_of_not_enc len, exec_decBlock_of_not_dec len, exec_decBlock_of_dec_of_lt,
      fun hlen => if_pos hlen⟩

/-! ### What clears ERR (R207) -/

section clearing
variable {s t u : State}

/-- The commands that clear ERR. -/
def ClearsErr (i : Instr) : Prop := i = .abort ∨ (∃ src, i = .encStart src) ∨ ∃ len, i = .decStart len

theorem exec_encStart_err {src : IvSrc} (h : exec (.encStart src) s = .next t) : t.err = errNone := by
  obtain ⟨-, rfl⟩ | ⟨-, -, rfl⟩ := execEncStart_cases h <;> rfl

theorem exec_abort_err (h : exec .abort s = .next t) : t.err = errNone := by
  obtain rfl := execAbort_cases h
  rfl

/-- DEC_START clears ERR before it checks the length, so the error it records is its own. -/
theorem exec_decStart_err {len : Nat} (h : exec (.decStart len) s = .next t) :
    t.err = if len < 8 then ErrKind.truncatedInput.code else errNone := by
  obtain ⟨hlen, rfl⟩ | ⟨hlen, rfl⟩ := execDecStart_cases h
  · rw [if_pos hlen]
    rfl
  · rw [if_neg (Nat.not_lt.mpr hlen)]
    rfl

/-- Every other command leaves an error in ERR as it was. -/
theorem exec_clearsErr_or_err_eq {i : Instr} (hexec : exec i s = .next t) (hs : s.err ≠ errNone) :
    ClearsErr i ∨ t.err = s.err := by
  cases i with
  | abort => exact .inl (.inl rfl)
  | encStart src => exact .inl (.inr (.inl ⟨src, rfl⟩))
  | decStart len => exact .inl (.inr (.inr ⟨len, rfl⟩))
  | encBlock len =>
    right
    obtain ⟨-, rfl⟩ | ⟨-, rfl⟩ := execEncBlock_cases hexec
    · exact recordError_err_later _ hs
    · rfl
  | decBlock len =>
    right
    obtain ⟨-, rfl⟩ | ⟨-, -, rfl⟩ | ⟨-, -, rfl⟩ := execDecBlock_cases hexec
    · exact recordError_err_later _ hs
    · exact recordError_err_later _ hs
    · rfl
  | nop => exact .inr (by rw [execNop_cases hexec])
  | perm sel => exact .inr (by rw [execPerm_cases hexec])
  | fwd key => exact .inr (by rw [execFwd_cases hexec, countStages_err])
  | rev key => exact .inr (by rw [execRev_cases hexec, countStages_err])
  | cenc => exact .inr (by rw [execCenc_cases hexec, countStages_err])
  | cdec => exact .inr (by rw [execCdec_cases hexec, countStages_err])

/-- A word that takes ERR from a code to NONE is one of the clearing commands'. -/
theorem decode_of_execWord_clears {w : BitVec 64} (hexec : execWord w s = .next t) (hs : s.err ≠ errNone)
    (ht : t.err = errNone) : ∃ i, decode w = .instr i ∧ ClearsErr i := by
  cases hdec : decode w with
  | instr i =>
    rw [execWord_instr s hdec] at hexec
    have hkept : t.err ≠ s.err := fun h => hs (h.symm.trans ht)
    exact ⟨i, rfl, (exec_clearsErr_or_err_eq hexec hs).resolve_right hkept⟩
  | illegal why =>
    rw [execWord_illegal s hdec] at hexec
    cases hexec
    exact absurd ht (recordError_err_ne s _)

/-- The end of Complete clears no error: it records the overrun or leaves ERR. -/
theorem err_of_finish_err (h : (finish t).err = errNone) : t.err = errNone := by
  by_cases hovr : t.ovr = true
  · rw [finish_of_ovr hovr] at h
    exact absurd h (recordError_err_ne t .overrun)
  · rwa [finish_of_not_ovr (Bool.eq_false_of_not_eq_true hovr)] at h

/-- An engine's move that takes ERR from a code to NONE completes one of the clearing commands. -/
theorem decode_of_engineMove_clears (hmove : engineMove s = .next u) (hs : s.err ≠ errNone) (hu : u.err = errNone) :
    s.busy = true ∧ ∃ i, decode s.lcmd = .instr i ∧ ClearsErr i := by
  by_cases hbusy : s.busy = true
  · rw [engineMove_busy hbusy] at hmove
    obtain ⟨t, hexec, rfl⟩ | ⟨-, rfl⟩ := complete_cases hmove
    · exact ⟨hbusy, decode_of_execWord_clears hexec hs (err_of_finish_err hu)⟩
    · exact absurd hu hs
  · rw [engineMove_idle (Bool.eq_false_of_not_eq_true hbusy)] at hmove
    cases hmove
    exact absurd hu hs

/-- Of the moves a step can make, only the engine's and the assertion of reset can clear an error. -/
theorem step_clears_err (hstep : step s = .next u) (hs : s.err ≠ errNone) (hu : u.err = errNone) :
    (u.toEngine = Engine.reset ∧ u.resetLine = true) ∨
    (s.busy = true ∧ ∃ i, decode s.lcmd = .instr i ∧ ClearsErr i) := by
  obtain ⟨rest, hmove | ⟨-, idx, rfl⟩ | ⟨-, idx, v, rfl⟩ | rfl | rfl⟩ := step_cases hstep
  · exact .inr (decode_of_engineMove_clears (s := { s with turns := rest }) hmove hs hu)
  · exact absurd hu hs
  · rw [writePort_err] at hu
    exact absurd hu hs
  · exact .inl ⟨assertReset_toEngine _, assertReset_resetLine _⟩
  · exact absurd hu hs

end clearing

/-- Settles O22: the three commands' own ERR, reset's, and the inversion of a step that clears an error. -/
theorem errClearedOnlyByStartsAbortReset : Obligations.ErrClearedOnlyByStartsAbortReset := by
  unfold Obligations.ErrClearedOnlyByStartsAbortReset
  exact ⟨fun s t => ⟨fun _ => exec_encStart_err, exec_abort_err, fun _ => exec_decStart_err⟩,
    fun s rest h => ⟨_, step_assertReset h, rfl⟩, fun _ _ => step_clears_err⟩

/-! ### The overrun (R206) -/

section overrun
variable {s t : State}

/-- No command writes OVR: only a dropped write and the end of Complete do. -/
theorem exec_ovr {i : Instr} (hexec : exec i s = .next t) : t.ovr = s.ovr := by
  cases i with
  | nop => rw [execNop_cases hexec]
  | abort => rw [execAbort_cases hexec, clearError_ovr]
  | perm sel => rw [execPerm_cases hexec]
  | fwd key => rw [execFwd_cases hexec, countStages_ovr]
  | rev key => rw [execRev_cases hexec, countStages_ovr]
  | cenc => rw [execCenc_cases hexec, countStages_ovr]
  | cdec => rw [execCdec_cases hexec, countStages_ovr]
  | encStart src => obtain ⟨-, rfl⟩ | ⟨-, -, rfl⟩ := execEncStart_cases hexec <;> rfl
  | encBlock len => obtain ⟨-, rfl⟩ | ⟨-, rfl⟩ := execEncBlock_cases hexec <;> rfl
  | decStart len => obtain ⟨-, rfl⟩ | ⟨-, rfl⟩ := execDecStart_cases hexec <;> rfl
  | decBlock len => obtain ⟨-, rfl⟩ | ⟨-, -, rfl⟩ | ⟨-, -, rfl⟩ := execDecBlock_cases hexec <;> rfl

theorem execWord_ovr {w : BitVec 64} (hexec : execWord w s = .next t) : t.ovr = s.ovr := by
  cases hdec : decode w with
  | instr i => exact exec_ovr ((execWord_instr s hdec).symm.trans hexec)
  | illegal why =>
    rw [execWord_illegal s hdec] at hexec
    cases hexec
    rfl

/-- The end of Complete after a dropped write, field by field. -/
theorem finish_overrun (h : t.ovr = true) :
    finish t = { t with err := if t.err = 0#4 then 7#4 else t.err, mode := .idle, ovr := false, busy := false } :=
  finish_of_ovr h

end overrun

/-- Settles O28: the command keeps OVR, so the end of Complete finds it set and records the overrun over the command's
own result. -/
theorem overrunRecordedAfterTheResult : Obligations.OverrunRecordedAfterTheResult := by
  unfold Obligations.OverrunRecordedAfterTheResult
  refine ⟨fun k _ => recordError_later k, fun s t rest hturns hbusy hovr hexec => ?completion⟩
  case completion =>
    have htovr : t.ovr = true := (execWord_ovr hexec).trans hovr
    rw [step_completes hturns hbusy hexec, finish_overrun htovr]

end Sys2Proof.Machine
end

section
/-! Reset and hazards (70_reset_and_hazards.md): transactions while reset is asserted (R232), reset while a command runs
(R231), and the host's writes while BUSY = 1 (R236, R237). -/

namespace Sys2Proof.Machine

/-! ### Reset (R230 to R232) -/

/-- A move that is a transaction is refused during reset, whatever it would do (R232). -/
theorem step_transaction_refused {s t : State} {turn : Turn} {rest : List Turn} (hturns : s.turns = turn :: rest)
    (hmove : takeTurn turn { s with turns := rest } = transact { s with turns := rest } t)
    (hreset : s.resetLine = true) : step s = .refused .transactionDuringReset := by
  calc step s = takeTurn turn { s with turns := rest } := step_turn hturns
    _ = transact { s with turns := rest } t := hmove
    _ = _ := if_pos hreset

/-- Settles O40: a read and a write are transactions, which reset refuses. -/
theorem transactionDuringResetIsRefused : Obligations.TransactionDuringResetIsRefused := by
  unfold Obligations.TransactionDuringResetIsRefused
  exact fun s idx v rest hreset =>
    ⟨step_transaction_refused rfl rfl hreset, step_transaction_refused rfl rfl hreset⟩

/-- Settles O38: asserting reset replaces the registers in every state, so it does not execute the running command. -/
theorem resetAbandonsTheCommand : Obligations.ResetAbandonsTheCommand := by
  unfold Obligations.ResetAbandonsTheCommand
  exact fun _ _ => step_assertReset

/-! ### The host's writes as steps -/

section writes
variable {s : State} {rest : List Turn}

/-- The step of a port write out of reset is what the write does. -/
theorem step_write {idx : BitVec 5} {v : BitVec 64} (hturns : s.turns = .write idx v :: rest)
    (hreset : s.resetLine = false) : step s = .next (writePort idx v { s with turns := rest }) :=
  (step_turn hturns).trans (transact_next _ hreset)

/-- A DIN write changes DIN, whether a command runs or not (R236). -/
theorem step_dinWrite {v : BitVec 64} (hturns : s.turns = .write 2#5 v :: rest) (hreset : s.resetLine = false) :
    step s = .next { s with turns := rest, din := v } := by
  rw [step_write hturns hreset, writePort_din_idx]

/-- A CMD write while a command runs is dropped: it sets OVR (R237). -/
theorem step_cmdWrite_dropped {w : BitVec 64} (hturns : s.turns = .write 0#5 w :: rest) (hbusy : s.busy = true)
    (hreset : s.resetLine = false) : step s = .next { s with turns := rest, ovr := true } := by
  rw [step_write hturns hreset, writePort_cmd, writeCmd_busy (s := { s with turns := rest }) w hbusy]

/-- The engine's step while a command runs is Complete (R234). -/
theorem step_engine_busy (hturns : s.turns = .engine :: rest) (hbusy : s.busy = true) :
    step s = complete { s with turns := rest } :=
  (step_turn hturns).trans (engineMove_busy hbusy)

end writes

/-! ### A DIN write while BUSY = 1 (R236)

Complete reads LDIN and not DIN, so it commutes with a DIN write. -/

/-- The end of Complete reads neither DIN nor the moves to come nor what the host has read, and keeps them. -/
theorem finish_reframe (t : State) (d : BitVec 64) (turns : List Turn) (seen : List ReadValue) :
    finish { t with din := d, turns := turns, seen := seen } =
      { finish t with din := d, turns := turns, seen := seen } := by
  by_cases hovr : t.ovr = true
  · rw [finish_overrun hovr]
    exact finish_overrun hovr
  · have hnot : t.ovr = false := Bool.eq_false_of_not_eq_true hovr
    rw [finish_of_not_ovr hnot]
    exact finish_of_not_ovr hnot

/-- `exec_reframe` for a word, legal or illegal. -/
theorem execWord_reframe (w : BitVec 64) (s : State) (d : BitVec 64) (turns : List Turn) (seen : List ReadValue) :
    execWord w { s with din := d, turns := turns, seen := seen } = reframe d turns seen (execWord w s) := by
  cases hdec : decode w with
  | instr i => rw [execWord_instr _ hdec, execWord_instr s hdec, exec_reframe]
  | illegal why =>
    rw [execWord_illegal _ hdec, execWord_illegal s hdec]
    rfl

/-- Complete reads neither DIN nor the moves to come nor what the host has read, and keeps them. -/
theorem complete_reframe {s u : State} (d : BitVec 64) (turns : List Turn) (seen : List ReadValue)
    (h : complete s = .next u) :
    complete { s with din := d, turns := turns, seen := seen } =
      .next { u with din := d, turns := turns, seen := seen } := by
  have hexec := execWord_reframe s.lcmd s d turns seen
  obtain ⟨t, ht, rfl⟩ | ⟨hfault, rfl⟩ := complete_cases h
  · rw [ht] at hexec
    rw [complete_next hexec, finish_reframe]
  · rw [hfault] at hexec
    simp only [complete, hexec, reframe]

section reset
variable {s t u : State}

/-- No command moves the reset input. -/
theorem exec_resetLine {i : Instr} (hexec : exec i s = .next t) : t.resetLine = s.resetLine := by
  cases i with
  | nop => rw [execNop_cases hexec]
  | abort => rw [execAbort_cases hexec, clearError_resetLine]
  | perm sel => rw [execPerm_cases hexec]
  | fwd key => rw [execFwd_cases hexec, countStages_resetLine]
  | rev key => rw [execRev_cases hexec, countStages_resetLine]
  | cenc => rw [execCenc_cases hexec, countStages_resetLine]
  | cdec => rw [execCdec_cases hexec, countStages_resetLine]
  | encStart src => obtain ⟨-, rfl⟩ | ⟨-, -, rfl⟩ := execEncStart_cases hexec <;> rfl
  | encBlock len => obtain ⟨-, rfl⟩ | ⟨-, rfl⟩ := execEncBlock_cases hexec <;> rfl
  | decStart len => obtain ⟨-, rfl⟩ | ⟨-, rfl⟩ := execDecStart_cases hexec <;> rfl
  | decBlock len => obtain ⟨-, rfl⟩ | ⟨-, -, rfl⟩ | ⟨-, -, rfl⟩ := execDecBlock_cases hexec <;> rfl

theorem execWord_resetLine {w : BitVec 64} (hexec : execWord w s = .next t) : t.resetLine = s.resetLine := by
  cases hdec : decode w with
  | instr i => exact exec_resetLine ((execWord_instr s hdec).symm.trans hexec)
  | illegal why =>
    rw [execWord_illegal s hdec] at hexec
    cases hexec
    rfl

theorem complete_resetLine (h : complete s = .next u) : u.resetLine = s.resetLine := by
  obtain ⟨t, ht, rfl⟩ | ⟨-, rfl⟩ := complete_cases h
  · rw [finish_resetLine, execWord_resetLine ht]
  · rfl

end reset

section hazards
variable {s : State}

/-- The engine's move on a running command, whatever DIN and the moves to come. -/
theorem step_engine_reframe {u : State} (d : BitVec 64) (rest : List Turn) (hbusy : s.busy = true)
    (hu : complete s = .next u) :
    step { s with turns := .engine :: rest, din := d } = .next { u with turns := rest, din := d, seen := s.seen } := by
  calc step { s with turns := .engine :: rest, din := d }
    _ = complete { s with turns := rest, din := d } := step_engine_busy rfl hbusy
    _ = _ := complete_reframe d rest s.seen hu

/-- While a command runs, a DIN write and the engine's move commute: both orders end in Complete's result with the new
DIN (R236). -/
theorem runSteps_dinWrite_engine_comm (v : BitVec 64) (rest : List Turn) (hbusy : s.busy = true)
    (hreset : s.resetLine = false) :
    runSteps 2 { s with turns := .write 2#5 v :: .engine :: rest } =
      runSteps 2 { s with turns := .engine :: .write 2#5 v :: rest } := by
  obtain ⟨u, hu⟩ := complete_total s
  have hureset : u.resetLine = false := (complete_resetLine hu).trans hreset
  have hwriteFirst : step { s with turns := .write 2#5 v :: .engine :: rest } =
      .next { s with turns := .engine :: rest, din := v } := step_dinWrite rfl hreset
  have hthenEngine : step { s with turns := .engine :: rest, din := v } =
      .next { u with turns := rest, din := v, seen := s.seen } := step_engine_reframe v rest hbusy hu
  have hengineFirst : step { s with turns := .engine :: .write 2#5 v :: rest } =
      .next { u with turns := .write 2#5 v :: rest, din := s.din, seen := s.seen } :=
    step_engine_reframe s.din _ hbusy hu
  have hthenWrite : step { u with turns := .write 2#5 v :: rest, din := s.din, seen := s.seen } =
      .next { u with turns := rest, din := v, seen := s.seen } := step_dinWrite rfl hureset
  rw [runSteps_succ 1 hwriteFirst, runSteps_succ 0 hthenEngine, runSteps_succ 1 hengineFirst,
    runSteps_succ 0 hthenWrite]

/-- A command accepted after a DIN write latches the new DIN (R236, R234). -/
theorem runSteps_dinWrite_cmdWrite (v w : BitVec 64) (rest : List Turn) (hbusy : s.busy = false)
    (hreset : s.resetLine = false) :
    runSteps 2 { s with turns := .write 2#5 v :: .write 0#5 w :: rest } =
      .next { s with turns := rest, din := v, lcmd := w, ldin := v, busy := true } := by
  have hwrite : step { s with turns := .write 2#5 v :: .write 0#5 w :: rest } =
      .next { s with turns := .write 0#5 w :: rest, din := v } := step_dinWrite rfl hreset
  have haccept : step { s with turns := .write 0#5 w :: rest, din := v } =
      .next (accept w { s with turns := rest, din := v }) := step_cmdWrite_accepts rfl hbusy hreset
  rw [runSteps_succ 1 hwrite, runSteps_succ 0 haccept, runSteps_zero]
  rfl

/-- Settles O43: Complete commutes with the write, and Accept after it latches what was written. -/
theorem dinWriteDoesNotReachTheRunningCommand : Obligations.DinWriteDoesNotReachTheRunningCommand := by
  unfold Obligations.DinWriteDoesNotReachTheRunningCommand
  exact ⟨fun _ => runSteps_dinWrite_engine_comm, fun _ => runSteps_dinWrite_cmdWrite⟩

/-! ### A CMD write while BUSY = 1 (R237) -/

/-- Once OVR is set, further dropped writes change nothing. -/
theorem runSteps_cmdWrites_of_ovr (ws : List (BitVec 64)) (rest : List Turn) (hbusy : s.busy = true)
    (hreset : s.resetLine = false) :
    runSteps ws.length { s with turns := ws.map (.write 0#5) ++ rest, ovr := true } =
      .next { s with turns := rest, ovr := true } := by
  induction ws with
  | nil => rfl
  | cons w ws ih =>
    have hdropped : step { s with turns := (w :: ws).map (.write 0#5) ++ rest, ovr := true } =
        .next { s with turns := ws.map (.write 0#5) ++ rest, ovr := true } := step_cmdWrite_dropped rfl hbusy hreset
    rw [List.length_cons, runSteps_succ _ hdropped, ih]

/-- The first dropped write sets OVR, the others find it set. -/
theorem runSteps_cmdWrites (w : BitVec 64) (ws : List (BitVec 64)) (rest : List Turn) (hbusy : s.busy = true)
    (hreset : s.resetLine = false) :
    runSteps (ws.length + 1) { s with turns := (w :: ws).map (.write 0#5) ++ rest } =
      .next { s with turns := rest, ovr := true } := by
  have hdropped : step { s with turns := (w :: ws).map (.write 0#5) ++ rest } =
      .next { s with turns := ws.map (.write 0#5) ++ rest, ovr := true } := step_cmdWrite_dropped rfl hbusy hreset
  rw [runSteps_succ _ hdropped, runSteps_cmdWrites_of_ovr ws rest hbusy hreset]

/-- A command that completes after a dropped write ends with OVR cleared, the session closed and an error in ERR. -/
theorem step_completes_of_ovr {u : State} {rest : List Turn} (hstep : step s = .next u)
    (hturns : s.turns = .engine :: rest) (hbusy : s.busy = true) (hovr : s.ovr = true) (hdone : u.busy = false) :
    u.ovr = false ∧ u.mode = .idle ∧ u.err ≠ errNone := by
  rw [step_engine_busy hturns hbusy] at hstep
  obtain ⟨t, hexec, rfl⟩ | ⟨-, rfl⟩ := complete_cases hstep
  · have htovr : t.ovr = true := (execWord_ovr hexec).trans hovr
    rw [finish_of_ovr htovr]
    exact ⟨rfl, rfl, recordError_err_ne t .overrun⟩
  · exact absurd (hbusy.symm.trans hdone) (by decide)

/-- Settles O44: the dropped writes by induction on their list; the completion by what Complete does with OVR set. -/
theorem cmdWriteWhileBusyIsDropped : Obligations.CmdWriteWhileBusyIsDropped := by
  unfold Obligations.CmdWriteWhileBusyIsDropped
  exact fun s ws w rest hbusy hreset => ⟨runSteps_cmdWrites w ws rest hbusy hreset,
    fun u hstep hdone => step_completes_of_ovr hstep rfl hbusy rfl hdone⟩

end hazards

end Sys2Proof.Machine
end

section
/-! The encoding (30_encoding.md R76, R77): the decoder and the encoder undo each other, and a word is accepted by one
row of the opcode table at most. -/

namespace Sys2Proof

/-- Every well-formed command is read back from its word: its OP selects its own case of the decoder, and a byte count
of at most 8 fits LEN (R72, R77). -/
theorem decode_encode {i : Instr} (h : i.wf = true) : decode (encode i) = .instr i := by
  cases i with
  | nop => exact decode_commandWord _ _ _
  | abort => exact decode_commandWord _ _ _
  | cenc => exact decode_commandWord _ _ _
  | cdec => exact decode_commandWord _ _ _
  | encStart src => cases src <;> exact decode_commandWord _ _ _
  | perm table => cases table <;> exact decode_commandWord _ _ _
  | fwd key => cases key <;> exact decode_commandWord _ _ _
  | rev key => cases key <;> exact decode_commandWord _ _ _
  | encBlock len => exact (decode_commandWord _ _ _).trans (decodeCount_of_ok .encBlock (blockLenOk_iff.mp h).2 h)
  | decStart len => exact (decode_commandWord _ _ _).trans (decodeCount_of_ok .decStart (ivLenOk_iff.mp h) h)
  | decBlock len => exact (decode_commandWord _ _ _).trans (decodeCount_of_ok .decBlock (blockLenOk_iff.mp h).2 h)

/-- Settles O1: each command's word selects the command's own case of the decoder. -/
theorem decodeOfEncodeIsTheCommand : Obligations.DecodeOfEncodeIsTheCommand := by
  unfold Obligations.DecodeOfEncodeIsTheCommand
  exact fun _ => decode_encode

/-- Settles O2: a decoded word has no reserved bit, so it is the word of its fields, which are the command's. -/
theorem encodeOfDecodeIsTheWord : Obligations.EncodeOfDecodeIsTheWord := by
  unfold Obligations.EncodeOfDecodeIsTheWord
  exact fun _ _ => encode_of_decode

/-- No two rows have the same OP (R75, R76). -/
theorem opcodeTable_op_injective : ∀ r ∈ opcodeTable, ∀ r' ∈ opcodeTable,
    opField r.pattern = opField r'.pattern → r = r' := by
  decide

/-- Two rows that accept the same word are the same row: both have the word's OP. -/
theorem row_unique_of_accepts {r r' : OpcodeRow} {w : BitVec 64} (hr : r ∈ opcodeTable) (hr' : r' ∈ opcodeTable)
    (h : r.accepts w = true) (h' : r'.accepts w = true) : r = r' := by
  obtain ⟨-, hop⟩ := fields_of_accepts hr h
  obtain ⟨-, hop'⟩ := fields_of_accepts hr' h'
  exact opcodeTable_op_injective r hr r' hr' (hop.symm.trans hop')

/-- Settles O3: a decoded word is accepted by its command's row, and the OP tells the rows apart. -/
theorem decoderAgreesWithOpcodeTable : Obligations.DecoderAgreesWithOpcodeTable := by
  unfold Obligations.DecoderAgreesWithOpcodeTable
  refine fun w => ⟨decode_instr_iff w, fun i hdec => ?_⟩
  obtain ⟨hmem, hacc⟩ := row_accepts_of_decode hdec
  exact ⟨hacc, fun r hr h => row_unique_of_accepts hr hmem h hacc⟩

/-- Settles O4: by running the decoder on each listed word; on the words that are no command,
no row of the table accepts them. -/
theorem listedWordsDecodeAsListed : Obligations.ListedWordsDecodeAsListed := by
  unfold Obligations.ListedWordsDecodeAsListed
  refine ⟨rfl, rfl, rfl, rfl, rfl, rfl, rfl, rfl, rfl, rfl, rfl, rfl, rfl, rfl, rfl, rfl, rfl, rfl, ?illegalWords⟩
  case illegalWords =>
    simp only [List.forall_mem_cons, List.not_mem_nil, false_implies, implies_true, and_true, decode_illegal_iff]
    decide

end Sys2Proof
end

section
/-! Rules over all commands (10_state.md R22 to R31, 60_exceptions.md R204) and over all steps: what a command writes,
what a step can change, and the invariant that every step keeps. -/

namespace Sys2Proof.Machine

variable {i : Instr} {s t u : State} {n : Nat}

/-! ### What a command writes -/

/-- A command writes no field but these six. -/
theorem exec_frame (hexec : exec i s = .next t) : ∃ dout fb mode err stgcnt draws,
    t = { s with dout := dout, fb := fb, mode := mode, err := err, stgcnt := stgcnt, draws := draws } := by
  cases i with
  | nop => exact ⟨_, _, _, _, _, _, execNop_cases hexec⟩
  | abort => exact ⟨_, _, _, _, _, _, execAbort_cases hexec⟩
  | perm sel => exact ⟨_, _, _, _, _, _, execPerm_cases hexec⟩
  | fwd key => exact ⟨_, _, _, _, _, _, execFwd_cases hexec⟩
  | rev key => exact ⟨_, _, _, _, _, _, execRev_cases hexec⟩
  | cenc => exact ⟨_, _, _, _, _, _, execCenc_cases hexec⟩
  | cdec => exact ⟨_, _, _, _, _, _, execCdec_cases hexec⟩
  | encStart src =>
    obtain ⟨-, h⟩ | ⟨-, -, h⟩ := execEncStart_cases hexec <;> exact ⟨_, _, _, _, _, _, h⟩
  | encBlock len =>
    obtain ⟨-, h⟩ | ⟨-, h⟩ := execEncBlock_cases hexec <;> exact ⟨_, _, _, _, _, _, h⟩
  | decStart len =>
    obtain ⟨-, h⟩ | ⟨-, h⟩ := execDecStart_cases hexec <;> exact ⟨_, _, _, _, _, _, h⟩
  | decBlock len =>
    obtain ⟨-, h⟩ | ⟨-, -, h⟩ | ⟨-, -, h⟩ := execDecBlock_cases hexec <;> exact ⟨_, _, _, _, _, _, h⟩

/-- What a word answers: its command's result, or ILLEGAL_CMD recorded (30_encoding.md R78). -/
theorem execWord_cases {w : BitVec 64} (hexec : execWord w s = .next t) :
    (∃ i, decode w = .instr i ∧ exec i s = .next t) ∨
    ((∃ why, decode w = .illegal why) ∧ t = recordError .illegalCmd s) := by
  cases hdec : decode w with
  | instr i => exact .inl ⟨i, rfl, (execWord_instr s hdec).symm.trans hexec⟩
  | illegal why =>
    rw [execWord_illegal s hdec] at hexec
    cases hexec
    exact .inr ⟨⟨why, rfl⟩, rfl⟩

/-- `exec_frame` for a word, legal or illegal. -/
theorem execWord_frame {w : BitVec 64} (hexec : execWord w s = .next t) : ∃ dout fb mode err stgcnt draws,
    t = { s with dout := dout, fb := fb, mode := mode, err := err, stgcnt := stgcnt, draws := draws } := by
  obtain ⟨i, -, h⟩ | ⟨-, h⟩ := execWord_cases hexec
  · exact exec_frame h
  · exact ⟨_, _, _, _, _, _, h⟩

/-- Only ENC_START with the random source makes a draw (42_chaining.md R148). -/
theorem exec_draws (hexec : exec i s = .next t) (hi : i ≠ .encStart .rng) : t.draws = s.draws := by
  cases i with
  | nop => rw [execNop_cases hexec]
  | abort => rw [execAbort_cases hexec, clearError_draws]
  | perm sel => rw [execPerm_cases hexec]
  | fwd key => rw [execFwd_cases hexec, countStages_draws]
  | rev key => rw [execRev_cases hexec, countStages_draws]
  | cenc => rw [execCenc_cases hexec, countStages_draws]
  | cdec => rw [execCdec_cases hexec, countStages_draws]
  | encStart src =>
    obtain ⟨-, rfl⟩ | ⟨rfl, -, -⟩ := execEncStart_cases hexec
    · rfl
    · exact absurd rfl hi
  | encBlock len => obtain ⟨-, rfl⟩ | ⟨-, rfl⟩ := execEncBlock_cases hexec <;> rfl
  | decStart len => obtain ⟨-, rfl⟩ | ⟨-, rfl⟩ := execDecStart_cases hexec <;> rfl
  | decBlock len => obtain ⟨-, rfl⟩ | ⟨-, -, rfl⟩ | ⟨-, -, rfl⟩ := execDecBlock_cases hexec <;> rfl

/-- Settles O19: none of these fields is among those a command writes. -/
theorem commandsKeepDinLatchesAndSurroundings : Obligations.CommandsKeepDinLatchesAndSurroundings := by
  unfold Obligations.CommandsKeepDinLatchesAndSurroundings
  intro i s t hexec
  have hdraws := exec_draws hexec
  obtain ⟨dout, fb, mode, err, stgcnt, draws, rfl⟩ := exec_frame hexec
  exact ⟨rfl, rfl, rfl, rfl, rfl, rfl, rfl, rfl, rfl, hdraws⟩

/-- What a command does to ERR: it records an error and writes ERR and MODE alone, or it leaves ERR or clears it. -/
theorem exec_err_cases (hexec : exec i s = .next t) :
    t = { s with err := t.err, mode := .idle } ∨ t.err = s.err ∨ t.err = errNone := by
  cases i with
  | nop => exact .inr (.inl (by rw [execNop_cases hexec]))
  | abort => exact .inr (.inr (exec_abort_err hexec))
  | perm sel => exact .inr (.inl (by rw [execPerm_cases hexec]))
  | fwd key => exact .inr (.inl (by rw [execFwd_cases hexec, countStages_err]))
  | rev key => exact .inr (.inl (by rw [execRev_cases hexec, countStages_err]))
  | cenc => exact .inr (.inl (by rw [execCenc_cases hexec, countStages_err]))
  | cdec => exact .inr (.inl (by rw [execCdec_cases hexec, countStages_err]))
  | encStart src => exact .inr (.inr (exec_encStart_err hexec))
  | encBlock len =>
    obtain ⟨-, rfl⟩ | ⟨-, rfl⟩ := execEncBlock_cases hexec
    · exact .inl rfl
    · exact .inr (.inl rfl)
  | decStart len =>
    obtain ⟨-, rfl⟩ | ⟨-, rfl⟩ := execDecStart_cases hexec
    · exact .inl rfl
    · exact .inr (.inr rfl)
  | decBlock len =>
    obtain ⟨-, rfl⟩ | ⟨-, -, rfl⟩ | ⟨-, -, rfl⟩ := execDecBlock_cases hexec
    · exact .inl rfl
    · exact .inl rfl
    · exact .inr (.inl rfl)

/-- Settles O20: of what a command can do to ERR, only recording an error leaves a new code. -/
theorem errorsArePrecise : Obligations.ErrorsArePrecise := by
  unfold Obligations.ErrorsArePrecise
  intro i s t hexec hnew hcode
  obtain h | h | h := exec_err_cases hexec
  · exact h
  · exact absurd h hnew
  · exact absurd h hcode

/-- The command `i` answers `v` in DOUT (10_state.md R23). -/
def WritesDout (i : Instr) (s : State) (v : BitVec 64) : Prop :=
  (i = .encStart .din ∧ v = s.ldin) ∨ (i = .encStart .rng ∧ v = Config.draw64 s.draws) ∨
  (∃ len, i = .encBlock len ∧ s.mode = .enc ∧ v = cascadeEnc s.params.tables (padReg s.ldin len ^^^ s.fb)) ∨
  (∃ len, i = .decBlock len ∧ s.mode = .dec ∧ 8 ≤ len ∧ v = cascadeDec s.params.tables s.ldin ^^^ s.fb) ∨
  (∃ sel, i = .perm sel ∧ v = permuteReg s.ldin (tableOf s.params.tables sel)) ∨
  (∃ key, i = .fwd key ∧ v = forward s.params.tables s.ldin (Config.key key)) ∨
  (∃ key, i = .rev key ∧ v = reverse s.params.tables s.ldin (Config.key key)) ∨
  (i = .cenc ∧ v = cascadeEnc s.params.tables s.ldin) ∨
  (i = .cdec ∧ v = cascadeDec s.params.tables s.ldin)

/-- A command that changes DOUT writes its result there, and records no error. -/
theorem exec_dout (hexec : exec i s = .next t) (hdout : t.dout ≠ s.dout) :
    (t.err = s.err ∨ t.err = errNone) ∧ WritesDout i s t.dout := by
  cases i with
  | nop => exact absurd (by rw [execNop_cases hexec]) hdout
  | abort => exact absurd (by rw [execAbort_cases hexec, clearError_dout]) hdout
  | decStart len => obtain ⟨-, rfl⟩ | ⟨-, rfl⟩ := execDecStart_cases hexec <;> exact absurd rfl hdout
  | encStart src =>
    obtain ⟨rfl, rfl⟩ | ⟨rfl, -, rfl⟩ := execEncStart_cases hexec
    · exact ⟨.inr rfl, .inl ⟨rfl, rfl⟩⟩
    · exact ⟨.inr rfl, .inr (.inl ⟨rfl, rfl⟩)⟩
  | encBlock len =>
    obtain ⟨-, rfl⟩ | ⟨hmode, rfl⟩ := execEncBlock_cases hexec
    · exact absurd rfl hdout
    · exact ⟨.inl rfl, .inr (.inr (.inl ⟨len, rfl, hmode, rfl⟩))⟩
  | decBlock len =>
    obtain ⟨-, rfl⟩ | ⟨-, -, rfl⟩ | ⟨hmode, hlen, rfl⟩ := execDecBlock_cases hexec
    · exact absurd rfl hdout
    · exact absurd rfl hdout
    · exact ⟨.inl rfl, .inr (.inr (.inr (.inl ⟨len, rfl, hmode, hlen, rfl⟩)))⟩
  | perm sel =>
    obtain rfl := execPerm_cases hexec
    exact ⟨.inl rfl, .inr (.inr (.inr (.inr (.inl ⟨sel, rfl, rfl⟩))))⟩
  | fwd key =>
    obtain rfl := execFwd_cases hexec
    exact ⟨.inl rfl, .inr (.inr (.inr (.inr (.inr (.inl ⟨key, rfl, rfl⟩)))))⟩
  | rev key =>
    obtain rfl := execRev_cases hexec
    exact ⟨.inl rfl, .inr (.inr (.inr (.inr (.inr (.inr (.inl ⟨key, rfl, rfl⟩))))))⟩
  | cenc =>
    obtain rfl := execCenc_cases hexec
    exact ⟨.inl rfl, .inr (.inr (.inr (.inr (.inr (.inr (.inr (.inl ⟨rfl, rfl⟩)))))))⟩
  | cdec =>
    obtain rfl := execCdec_cases hexec
    exact ⟨.inl rfl, .inr (.inr (.inr (.inr (.inr (.inr (.inr (.inr ⟨rfl, rfl⟩)))))))⟩

/-- A session command that changes the feedback value sets it to its output block, or, decrypting, to its operand
(10_state.md R24). -/
theorem exec_fb (hexec : exec i s = .next t) (hfb : t.fb ≠ s.fb) :
    (∃ src, i = .encStart src ∧ t.fb = t.dout) ∨ (∃ len, i = .encBlock len ∧ t.fb = t.dout) ∨
    (∃ len, i = .decStart len ∧ t.fb = s.ldin) ∨ (∃ len, i = .decBlock len ∧ t.fb = s.ldin) := by
  cases i with
  | nop => exact absurd (by rw [execNop_cases hexec]) hfb
  | abort => exact absurd (by rw [execAbort_cases hexec, clearError_fb]) hfb
  | perm sel => exact absurd (by rw [execPerm_cases hexec]) hfb
  | fwd key => exact absurd (by rw [execFwd_cases hexec, countStages_fb]) hfb
  | rev key => exact absurd (by rw [execRev_cases hexec, countStages_fb]) hfb
  | cenc => exact absurd (by rw [execCenc_cases hexec, countStages_fb]) hfb
  | cdec => exact absurd (by rw [execCdec_cases hexec, countStages_fb]) hfb
  | encStart src =>
    obtain ⟨-, rfl⟩ | ⟨-, -, rfl⟩ := execEncStart_cases hexec <;> exact .inl ⟨src, rfl, rfl⟩
  | encBlock len =>
    obtain ⟨-, rfl⟩ | ⟨-, rfl⟩ := execEncBlock_cases hexec
    · exact absurd rfl hfb
    · exact .inr (.inl ⟨len, rfl, rfl⟩)
  | decStart len =>
    obtain ⟨-, rfl⟩ | ⟨-, rfl⟩ := execDecStart_cases hexec
    · exact absurd rfl hfb
    · exact .inr (.inr (.inl ⟨len, rfl, rfl⟩))
  | decBlock len =>
    obtain ⟨-, rfl⟩ | ⟨-, -, rfl⟩ | ⟨-, -, rfl⟩ := execDecBlock_cases hexec
    · exact absurd rfl hfb
    · exact absurd rfl hfb
    · exact .inr (.inr (.inr ⟨len, rfl, rfl⟩))

/-- Settles O21: what each command answers in the two registers, where it does not leave them. -/
theorem doutAndFbHaveTheseWriters : Obligations.DoutAndFbHaveTheseWriters := by
  unfold Obligations.DoutAndFbHaveTheseWriters
  exact fun _ _ _ hexec => ⟨exec_dout hexec, exec_fb hexec⟩

/-- What a command does to MODE (10_state.md R28). -/
theorem exec_mode_cases (hexec : exec i s = .next t) :
    t.mode = s.mode ∨ t.mode = .idle ∨ (t.mode = .enc ∧ ∃ src, i = .encStart src) ∨
    (t.mode = .dec ∧ ∃ len, 8 ≤ len ∧ i = .decStart len) ∨
    (t.mode = .encClosed ∧ s.mode = .enc ∧ ∃ len, len < 8 ∧ i = .encBlock len) := by
  cases i with
  | nop => exact .inl (by rw [execNop_cases hexec])
  | abort => exact .inr (.inl (by rw [execAbort_cases hexec]))
  | perm sel => exact .inl (by rw [execPerm_cases hexec])
  | fwd key => exact .inl (by rw [execFwd_cases hexec, countStages_mode])
  | rev key => exact .inl (by rw [execRev_cases hexec, countStages_mode])
  | cenc => exact .inl (by rw [execCenc_cases hexec, countStages_mode])
  | cdec => exact .inl (by rw [execCdec_cases hexec, countStages_mode])
  | encStart src =>
    obtain ⟨-, rfl⟩ | ⟨-, -, rfl⟩ := execEncStart_cases hexec <;> exact .inr (.inr (.inl ⟨rfl, src, rfl⟩))
  | encBlock len =>
    obtain ⟨-, rfl⟩ | ⟨hmode, rfl⟩ := execEncBlock_cases hexec
    · exact .inr (.inl rfl)
    · by_cases hlen : len < 8
      · exact .inr (.inr (.inr (.inr ⟨if_pos hlen, hmode, len, hlen, rfl⟩)))
      · exact .inl (if_neg hlen)
  | decStart len =>
    obtain ⟨-, rfl⟩ | ⟨hlen, rfl⟩ := execDecStart_cases hexec
    · exact .inr (.inl rfl)
    · exact .inr (.inr (.inr (.inl ⟨rfl, len, hlen, rfl⟩)))
  | decBlock len =>
    obtain ⟨-, rfl⟩ | ⟨-, -, rfl⟩ | ⟨-, -, rfl⟩ := execDecBlock_cases hexec
    · exact .inr (.inl rfl)
    · exact .inr (.inl rfl)
    · exact .inl rfl

/-- What a command does to STGCNT (10_state.md R30). -/
theorem exec_stgcnt_cases (hexec : exec i s = .next t) :
    t.stgcnt = s.stgcnt ∨ (t.stgcnt = s.stgcnt + 1#32 ∧ ∃ key, i = .fwd key ∨ i = .rev key) ∨
    (t.stgcnt = s.stgcnt + 3#32 ∧ (i = .cenc ∨ i = .cdec ∨ (∃ len, i = .encBlock len ∧ s.mode = .enc) ∨
      ∃ len, 8 ≤ len ∧ i = .decBlock len ∧ s.mode = .dec)) := by
  cases i with
  | nop => exact .inl (by rw [execNop_cases hexec])
  | abort => exact .inl (by rw [execAbort_cases hexec, clearError_stgcnt])
  | perm sel => exact .inl (by rw [execPerm_cases hexec])
  | encStart src => obtain ⟨-, rfl⟩ | ⟨-, -, rfl⟩ := execEncStart_cases hexec <;> exact .inl rfl
  | decStart len => obtain ⟨-, rfl⟩ | ⟨-, rfl⟩ := execDecStart_cases hexec <;> exact .inl rfl
  | fwd key => exact .inr (.inl ⟨by rw [execFwd_cases hexec, countStages_stgcnt], key, .inl rfl⟩)
  | rev key => exact .inr (.inl ⟨by rw [execRev_cases hexec, countStages_stgcnt], key, .inr rfl⟩)
  | cenc => exact .inr (.inr ⟨by rw [execCenc_cases hexec, countStages_stgcnt], .inl rfl⟩)
  | cdec => exact .inr (.inr ⟨by rw [execCdec_cases hexec, countStages_stgcnt], .inr (.inl rfl)⟩)
  | encBlock len =>
    obtain ⟨-, rfl⟩ | ⟨hmode, rfl⟩ := execEncBlock_cases hexec
    · exact .inl rfl
    · exact .inr (.inr ⟨rfl, .inr (.inr (.inl ⟨len, rfl, hmode⟩))⟩)
  | decBlock len =>
    obtain ⟨-, rfl⟩ | ⟨-, -, rfl⟩ | ⟨hmode, hlen, rfl⟩ := execDecBlock_cases hexec
    · exact .inl rfl
    · exact .inl rfl
    · exact .inr (.inr ⟨rfl, .inr (.inr (.inr ⟨len, hlen, rfl, hmode⟩))⟩)

/-! ### What a step can change -/

/-- What the engine's move answers: a command's completion, or the state itself, where no command runs or the draw is
never answered. -/
theorem engineMove_cases (hmove : engineMove s = .next u) :
    (s.busy = true ∧ ∃ t, execWord s.lcmd s = .next t ∧ u = finish t) ∨ u = s := by
  by_cases hbusy : s.busy = true
  · rw [engineMove_busy hbusy] at hmove
    obtain h | ⟨-, h⟩ := complete_cases hmove
    · exact .inl ⟨hbusy, h⟩
    · exact .inr h
  · rw [engineMove_idle (Bool.eq_false_of_not_eq_true hbusy)] at hmove
    cases hmove
    exact .inr rfl

/-- What a step does to the result registers: reset, a completion, or nothing. -/
theorem step_result_cases (hstep : step s = .next u) :
    (u.toEngine = Engine.reset ∧ u.resetLine = true) ∨
    (s.busy = true ∧ ∃ rest t, execWord s.lcmd { s with turns := rest } = .next t ∧ u = finish t) ∨
    (u.dout = s.dout ∧ u.fb = s.fb ∧ u.mode = s.mode ∧ u.err = s.err ∧ u.stgcnt = s.stgcnt) := by
  obtain ⟨rest, hmove | ⟨-, idx, rfl⟩ | ⟨-, idx, v, rfl⟩ | rfl | rfl⟩ := step_cases hstep
  · obtain ⟨hbusy, t, hexec, rfl⟩ | rfl := engineMove_cases hmove
    · exact .inr (.inl ⟨hbusy, rest, t, hexec, rfl⟩)
    · exact .inr (.inr ⟨rfl, rfl, rfl, rfl, rfl⟩)
  · exact .inr (.inr ⟨rfl, rfl, rfl, rfl, rfl⟩)
  · exact .inr (.inr ⟨writePort_dout .., writePort_fb .., writePort_mode .., writePort_err .., writePort_stgcnt ..⟩)
  · exact .inl ⟨rfl, rfl⟩
  · exact .inr (.inr ⟨rfl, rfl, rfl, rfl, rfl⟩)

/-- A decoded DEC_START or DEC_BLOCK with no fewer than eight bytes has eight (30_encoding.md R72). -/
theorem decode_decStart_len {w : BitVec 64} {len : Nat} (hdec : decode w = .instr (.decStart len)) (hlen : 8 ≤ len) :
    len = 8 :=
  Nat.le_antisymm (ivLenOk_iff.mp (encode_of_decode hdec).1) hlen

theorem decode_decBlock_len {w : BitVec 64} {len : Nat} (hdec : decode w = .instr (.decBlock len)) (hlen : 8 ≤ len) :
    len = 8 :=
  Nat.le_antisymm (blockLenOk_iff.mp (encode_of_decode hdec).1).2 hlen

/-- The end of Complete leaves MODE or sets it to IDLE. -/
theorem finish_mode_cases (t : State) : (finish t).mode = t.mode ∨ (finish t).mode = .idle := by
  rw [finish_mode]
  exact (ite_eq_or_eq _ _ _).symm

/-- Settles O23: of the steps, only a completion opens or closes a session, and then its command's effect on MODE is the
step's. -/
theorem modeOpensOnlyByStarts : Obligations.ModeOpensOnlyByStarts := by
  unfold Obligations.ModeOpensOnlyByStarts
  intro s u hstep hmode
  by_cases hidle : u.mode = .idle
  · simp [hidle]
  obtain ⟨hreset, -⟩ | ⟨hbusy, rest, t, hexec, rfl⟩ | ⟨-, -, hkept, -, -⟩ := step_result_cases hstep
  · exact absurd (by rw [hreset]; rfl) hidle
  · have hmodeEq : (finish t).mode = t.mode := (finish_mode_cases t).resolve_right hidle
    rw [hmodeEq] at hmode hidle ⊢
    obtain ⟨i, hdec, hexec⟩ | ⟨-, rfl⟩ := execWord_cases hexec
    · obtain h | h | ⟨h, src, rfl⟩ | ⟨h, len, hlen, rfl⟩ | ⟨h, henc, len, hlen, rfl⟩ := exec_mode_cases hexec
      · exact absurd h hmode
      · exact absurd h hidle
      · exact ⟨fun _ => ⟨hbusy, src, hdec⟩, by simp [h], by simp [h]⟩
      · obtain rfl := decode_decStart_len hdec hlen
        exact ⟨by simp [h], fun _ => ⟨hbusy, hdec⟩, by simp [h]⟩
      · exact ⟨by simp [h], by simp [h], fun _ => ⟨hbusy, henc, len, hlen, hdec⟩⟩
    · exact absurd rfl hidle
  · exact absurd hkept hmode

/-- Settles O24: of the steps, only reset and a completion change STGCNT, and a completion does what its command
does. -/
theorem stgcntCountsStages : Obligations.StgcntCountsStages := by
  unfold Obligations.StgcntCountsStages
  intro s u hstep hcount
  obtain hreset | ⟨hbusy, rest, t, hexec, rfl⟩ | ⟨-, -, -, -, hkept⟩ := step_result_cases hstep
  · exact .inl hreset
  · rw [finish_stgcnt] at hcount ⊢
    obtain ⟨i, hdec, hexec⟩ | ⟨-, rfl⟩ := execWord_cases hexec
    · obtain h | ⟨h, key, hkey⟩ | ⟨h, hthree⟩ := exec_stgcnt_cases hexec
      · exact absurd h hcount
      · exact .inr (.inl ⟨hbusy, h, key, hkey.imp (hdec.trans <| congrArg _ ·) (hdec.trans <| congrArg _ ·)⟩)
      · refine .inr (.inr ⟨hbusy, h, ?threeStages⟩)
        obtain rfl | rfl | ⟨len, rfl, henc⟩ | ⟨len, hlen, rfl, hdecMode⟩ := hthree
        · exact .inl hdec
        · exact .inr (.inl hdec)
        · exact .inr (.inr (.inl ⟨len, hdec, henc⟩))
        · obtain rfl := decode_decBlock_len hdec hlen
          exact .inr (.inr (.inr ⟨hdec, hdecMode⟩))
    · exact absurd rfl hcount
  · exact absurd hkept hcount

/-- The engine's move writes neither the parameters nor DIN. -/
theorem engineMove_params_din (hmove : engineMove s = .next u) : u.params = s.params ∧ u.din = s.din := by
  obtain ⟨-, t, hexec, rfl⟩ | rfl := engineMove_cases hmove
  · obtain ⟨dout, fb, mode, err, stgcnt, draws, rfl⟩ := execWord_frame hexec
    exact ⟨finish_params _, finish_din _⟩
  · exact ⟨rfl, rfl⟩

theorem step_params (hstep : step s = .next u) : u.params = s.params := by
  obtain ⟨rest, hmove | ⟨-, idx, rfl⟩ | ⟨-, idx, v, rfl⟩ | rfl | rfl⟩ := step_cases hstep
  · exact (engineMove_params_din hmove).1
  · rfl
  · exact writePort_params ..
  · rfl
  · rfl

/-- Settles O25: no agent's move writes the parameters. -/
theorem configurationIsConstant : Obligations.ConfigurationIsConstant := by
  unfold Obligations.ConfigurationIsConstant
  exact fun _ _ => step_params

/-! ### Who writes DIN (10_state.md R22) -/

/-- A port write that changes DIN is one to index 2 (20_memory.md R54). -/
theorem writePort_din_cases (idx : BitVec 5) (v : BitVec 64) (s : State) :
    (idx = 2#5 ∧ writePort idx v s = { s with din := v }) ∨ (writePort idx v s).din = s.din := by
  by_cases h2 : idx = 2#5
  · subst h2
    exact .inl ⟨rfl, rfl⟩
  · right
    by_cases h0 : idx = 0#5
    · subst h0
      rw [writePort_cmd, writeCmd]
      split <;> rfl
    · rw [writePort_other s v h0 h2]

/-- The bits of ENGINE_BASE above the window (20_memory.md R55). -/
@[simp] theorem engineBase_page (p : Params) : p.engineBase.extractLsb' 8 56 = p.enginePage :=
  BitVec.extractLsb'_append_eq_left

/-- The bus address that selects an index is ENGINE_BASE + 8 times the index, for a whole register (R53, R55). -/
theorem addr_of_busIndex {p : Params} {addr : BitVec 64} {bytes : Nat} {idx : BitVec 5}
    (h : busIndex p.engineBase addr bytes = .port idx) : bytes = 8 ∧ addr = p.enginePage ++ (idx ++ 0#3) := by
  obtain ⟨hpage, hbytes, hlow, rfl⟩ := busIndex_port h
  rw [engineBase_page] at hpage
  have hoffset : addr.extractLsb' 3 5 ++ addr.extractLsb' 0 3 = addr.extractLsb' 0 8 :=
    BitVec.extractLsb'_append_extractLsb'_eq_extractLsb' rfl
  have haddr : addr.extractLsb' 8 56 ++ addr.extractLsb' 0 8 = addr := BitVec.extractLsb'_append_extractLsb'
  rw [← hlow, hoffset, ← hpage, haddr]
  exact ⟨hbytes, rfl⟩

/-- The move `turn` is the host's write of `v` to index 2: by index, or at the bus address that selects it (R53). -/
def WritesDin (p : Params) (turn : Turn) (v : BitVec 64) : Prop :=
  turn = .write 2#5 v ∨
  ∃ addr, turn = .busWrite addr 8 v ∧ busIndex p.engineBase addr 8 = .port 2#5 ∧ addr = p.enginePage ++ 0x10#8

/-- An agent's move that changes DIN is reset's assertion or a host's write to index 2. -/
theorem takeTurn_din_cases {turn : Turn} (hmove : takeTurn turn s = .next u) (hdin : u.din ≠ s.din) :
    (u.toEngine = Engine.reset ∧ u.resetLine = true) ∨
    (u = { s with din := u.din } ∧ WritesDin s.params turn u.din) := by
  cases turn with
  | engine => exact absurd (engineMove_params_din hmove).2 hdin
  | read idx =>
    obtain ⟨-, rfl⟩ := transact_cases hmove
    exact absurd rfl hdin
  | write idx v =>
    obtain ⟨-, rfl⟩ := transact_cases hmove
    obtain ⟨rfl, hwrite⟩ | hkept := writePort_din_cases idx v s
    · rw [hwrite]
      exact .inr ⟨rfl, .inl rfl⟩
    · exact absurd hkept hdin
  | busRead addr bytes =>
    simp only [takeTurn] at hmove
    split at hmove
    · obtain ⟨-, rfl⟩ := transact_cases hmove
      exact absurd rfl hdin
    · cases hmove
  | busWrite addr bytes v =>
    simp only [takeTurn] at hmove
    split at hmove
    · rename_i idx hidx
      obtain ⟨-, rfl⟩ := transact_cases hmove
      obtain ⟨rfl, hwrite⟩ | hkept := writePort_din_cases idx v s
      · obtain ⟨rfl, haddr⟩ := addr_of_busIndex hidx
        rw [hwrite]
        exact .inr ⟨rfl, .inr ⟨addr, rfl, hidx, haddr⟩⟩
      · exact absurd hkept hdin
    · cases hmove
  | poll lat =>
    obtain ⟨-, rfl⟩ := transact_cases hmove
    exact absurd rfl hdin
  | assertReset =>
    cases hmove
    exact .inl ⟨rfl, rfl⟩
  | releaseReset =>
    cases hmove
    exact absurd rfl hdin

/-- Settles O26: with no move left the engine moves, which keeps DIN; otherwise by what the next agent's move does. -/
theorem dinChangesOnlyByHostWrite : Obligations.DinChangesOnlyByHostWrite := by
  unfold Obligations.DinChangesOnlyByHostWrite
  intro s u hstep hdin
  cases hturns : s.turns with
  | nil =>
    rw [step_noTurn hturns] at hstep
    exact absurd (engineMove_params_din hstep).2 hdin
  | cons turn rest =>
    rw [step_turn hturns] at hstep
    obtain hreset | ⟨hu, rfl | ⟨addr, rfl, hidx, haddr⟩⟩ := takeTurn_din_cases hstep hdin
    · exact .inl hreset
    · exact .inr ⟨rest, hu, .inl rfl⟩
    · exact .inr ⟨rest, hu, .inr ⟨addr, rfl, hidx, haddr⟩⟩

/-! ### The invariant (60_exceptions.md R202, R217; 70_reset_and_hazards.md R230, R237) -/

/-- What holds of the reset registers, and is kept by a port write and by a completion, is kept by every step. -/
theorem step_keeps_engine {P : Engine → Prop} (hreset : P Engine.reset)
    (hwrite : ∀ (idx : BitVec 5) (v : BitVec 64) (s : State), P s.toEngine → P (writePort idx v s).toEngine)
    (hcomplete : ∀ (s t : State), P s.toEngine → execWord s.lcmd s = .next t → P (finish t).toEngine)
    (hs : P s.toEngine) (hstep : step s = .next u) : P u.toEngine := by
  obtain ⟨rest, hmove | ⟨-, idx, rfl⟩ | ⟨-, idx, v, rfl⟩ | rfl | rfl⟩ := step_cases hstep
  · obtain ⟨-, t, hexec, rfl⟩ | rfl := engineMove_cases hmove
    · exact hcomplete { s with turns := rest } t hs hexec
    · exact hs
  · exact hs
  · exact hwrite idx v { s with turns := rest } hs
  · exact hreset
  · exact hs

/-- A recorded error closes the session; every other command leaves ERR = NONE or runs in the MODE it finds. -/
theorem exec_errorClosesSession (hs : ErrorClosesSession s.toEngine) (hexec : exec i s = .next t) :
    ErrorClosesSession t.toEngine := by
  cases i with
  | nop => rwa [execNop_cases hexec]
  | abort => exact fun h => absurd (exec_abort_err hexec) h
  | encStart src => exact fun h => absurd (exec_encStart_err hexec) h
  | perm sel => rwa [execPerm_cases hexec]
  | fwd key => rwa [execFwd_cases hexec]
  | rev key => rwa [execRev_cases hexec]
  | cenc => rwa [execCenc_cases hexec]
  | cdec => rwa [execCdec_cases hexec]
  | encBlock len =>
    obtain ⟨-, rfl⟩ | ⟨hmode, rfl⟩ := execEncBlock_cases hexec
    · exact fun _ => rfl
    · exact fun h => absurd ((hs h).symm.trans hmode) (by decide)
  | decStart len =>
    obtain ⟨-, rfl⟩ | ⟨-, rfl⟩ := execDecStart_cases hexec
    · exact fun _ => rfl
    · exact fun h => absurd rfl h
  | decBlock len =>
    obtain ⟨-, rfl⟩ | ⟨-, -, rfl⟩ | ⟨hmode, -, rfl⟩ := execDecBlock_cases hexec
    · exact fun _ => rfl
    · exact fun _ => rfl
    · exact fun h => absurd ((hs h).symm.trans hmode) (by decide)

theorem execWord_errorClosesSession {w : BitVec 64} (hs : ErrorClosesSession s.toEngine)
    (hexec : execWord w s = .next t) : ErrorClosesSession t.toEngine := by
  obtain ⟨i, -, h⟩ | ⟨-, rfl⟩ := execWord_cases hexec
  · exact exec_errorClosesSession hs h
  · exact fun _ => rfl

/-- The end of Complete: a recorded overrun closes the session too. -/
theorem finish_errorClosesSession (ht : ErrorClosesSession t.toEngine) : ErrorClosesSession (finish t).toEngine := by
  by_cases hovr : t.ovr = true
  · rw [finish_of_ovr hovr]
    exact fun _ => rfl
  · rwa [finish_of_not_ovr (Bool.eq_false_of_not_eq_true hovr)]

theorem step_errorClosesSession (hs : ErrorClosesSession s.toEngine) (hstep : step s = .next u) :
    ErrorClosesSession u.toEngine :=
  step_keeps_engine (fun h => absurd rfl h)
    (fun idx v s hs => by simpa only [ErrorClosesSession, writePort_err, writePort_mode] using hs)
    (fun _ _ hs hexec => finish_errorClosesSession (execWord_errorClosesSession hs hexec)) hs hstep

/-- An error whose code is one of the engine's own, 3 to 7, leaves ERR at a code that is produced (R202). -/
theorem recordError_errorProduced {k : ErrKind} (hk : 3 ≤ k.code.toNat ∧ k.code.toNat ≤ 7)
    (hs : ErrorProduced s.toEngine) : ErrorProduced (recordError k s).toEngine := by
  unfold ErrorProduced
  rw [recordError_err]
  split
  · exact .inr hk
  · exact hs

theorem exec_errorProduced (hs : ErrorProduced s.toEngine) (hexec : exec i s = .next t) :
    ErrorProduced t.toEngine := by
  cases i with
  | nop => rwa [execNop_cases hexec]
  | abort => exact .inl (exec_abort_err hexec)
  | encStart src => exact .inl (exec_encStart_err hexec)
  | perm sel => rwa [execPerm_cases hexec]
  | fwd key => rwa [execFwd_cases hexec]
  | rev key => rwa [execRev_cases hexec]
  | cenc => rwa [execCenc_cases hexec]
  | cdec => rwa [execCdec_cases hexec]
  | encBlock len =>
    obtain ⟨-, rfl⟩ | ⟨-, rfl⟩ := execEncBlock_cases hexec
    · exact recordError_errorProduced (by decide) hs
    · exact hs
  | decStart len =>
    obtain ⟨-, rfl⟩ | ⟨-, rfl⟩ := execDecStart_cases hexec
    · exact recordError_errorProduced (by decide) (.inl rfl)
    · exact .inl rfl
  | decBlock len =>
    obtain ⟨-, rfl⟩ | ⟨-, -, rfl⟩ | ⟨-, -, rfl⟩ := execDecBlock_cases hexec
    · exact recordError_errorProduced (by decide) hs
    · exact recordError_errorProduced (by decide) hs
    · exact hs

theorem execWord_errorProduced {w : BitVec 64} (hs : ErrorProduced s.toEngine) (hexec : execWord w s = .next t) :
    ErrorProduced t.toEngine := by
  obtain ⟨i, -, h⟩ | ⟨-, rfl⟩ := execWord_cases hexec
  · exact exec_errorProduced hs h
  · exact recordError_errorProduced (by decide) hs

theorem finish_errorProduced (ht : ErrorProduced t.toEngine) : ErrorProduced (finish t).toEngine := by
  by_cases hovr : t.ovr = true
  · rw [finish_of_ovr hovr]
    exact recordError_errorProduced (by decide) ht
  · rwa [finish_of_not_ovr (Bool.eq_false_of_not_eq_true hovr)]

theorem step_errorProduced (hs : ErrorProduced s.toEngine) (hstep : step s = .next u) : ErrorProduced u.toEngine :=
  step_keeps_engine (.inl rfl)
    (fun idx v s hs => by simpa only [ErrorProduced, writePort_err] using hs)
    (fun _ _ hs hexec => finish_errorProduced (execWord_errorProduced hs hexec)) hs hstep

/-- A port write that sets OVR finds BUSY = 1 and leaves it (R237). -/
theorem writePort_overrunOnlyBusy (idx : BitVec 5) (v : BitVec 64) (hs : OverrunOnlyBusy s.toEngine) :
    OverrunOnlyBusy (writePort idx v s).toEngine := by
  unfold writePort
  split
  · by_cases hbusy : s.busy = true
    · rw [writeCmd_busy v hbusy]
      exact fun _ => hbusy
    · rw [writeCmd_idle v (Bool.eq_false_of_not_eq_true hbusy)]
      exact fun _ => rfl
  · exact hs
  · exact hs

theorem step_overrunOnlyBusy (hs : OverrunOnlyBusy s.toEngine) (hstep : step s = .next u) :
    OverrunOnlyBusy u.toEngine :=
  step_keeps_engine (fun h => absurd h (by decide)) (fun idx v _ => writePort_overrunOnlyBusy idx v)
    (fun _ t _ _ h => absurd ((finish_ovr t).symm.trans h) (by decide)) hs hstep

/-- While reset is asserted no command runs and no transaction is made, so nothing writes a register. -/
theorem step_resetHolds (hs : ResetHolds s) (hstep : step s = .next u) : ResetHolds u := by
  obtain ⟨rest, hmove | ⟨hline, idx, rfl⟩ | ⟨hline, idx, v, rfl⟩ | rfl | rfl⟩ := step_cases hstep
  · obtain ⟨hbusy, t, hexec, rfl⟩ | rfl := engineMove_cases hmove
    · intro hline
      rw [finish_resetLine, execWord_resetLine hexec] at hline
      have hidle : s.busy = false := congrArg Engine.busy (hs hline)
      exact absurd (hbusy.symm.trans hidle) (by decide)
    · exact hs
  · exact fun h => absurd (hline.symm.trans h) Bool.false_ne_true
  · intro h
    rw [writePort_resetLine] at h
    exact absurd (hline.symm.trans h) Bool.false_ne_true
  · exact fun _ => rfl
  · exact fun h => absurd h Bool.false_ne_true

/-- Settles O31: each part of the invariant is kept by every step. -/
theorem stepKeepsTheInvariant : Obligations.StepKeepsTheInvariant := by
  unfold Obligations.StepKeepsTheInvariant
  intro s u hs hstep
  exact ⟨step_errorClosesSession hs.errorClosesSession hstep, step_errorProduced hs.errorProduced hstep,
    step_overrunOnlyBusy hs.overrunOnlyBusy hstep, step_resetHolds hs.resetHolds hstep,
    step_params hstep ▸ hs.tablesOk⟩

/-- Settles O30: no error, no command and no reset line, and the default tables meet R103. -/
theorem invariantAfterReset : Obligations.InvariantAfterReset := by
  unfold Obligations.InvariantAfterReset
  exact ⟨fun h => absurd rfl h, .inl rfl, fun h => absurd h (by decide), fun h => absurd h (by decide),
    defaultTables_ok⟩

/-! ### Every run from reset -/

/-- A run of at least one step that answers a state made its first step. -/
theorem runSteps_succ_inv (hrun : runSteps (n + 1) s = .next t) :
    ∃ u, step s = .next u ∧ runSteps n u = .next t := by
  simp only [runSteps, Host.Core.run] at hrun
  split at hrun
  · rename_i u hstep
    exact ⟨u, hstep, hrun⟩
  · cases hrun
  · cases hrun

/-- What every step keeps holds of every state a run reaches. -/
theorem runSteps_keeps {P : State → Prop} (hkeeps : ∀ s u, P s → step s = .next u → P u) (hs : P s)
    (hrun : runSteps n s = .next t) : P t := by
  induction n generalizing s with
  | zero =>
    cases hrun
    exact hs
  | succ n ih =>
    obtain ⟨u, hstep, hrest⟩ := runSteps_succ_inv hrun
    exact ih (hkeeps s u hs hstep) hrest

/-- Settles O29: reset has no error and every step keeps `ErrorClosesSession`; STATUS shows ERR and MODE as they are. -/
theorem errorImpliesIdleInEveryRun : Obligations.ErrorImpliesIdleInEveryRun := by
  unfold Obligations.ErrorImpliesIdleInEveryRun
  intro n turns params t hrun
  have hclosed : t.err ≠ errNone → t.mode = .idle :=
    runSteps_keeps (P := fun s => ErrorClosesSession s.toEngine) (fun _ _ => step_errorClosesSession)
      (fun h => absurd rfl h) hrun
  refine ⟨hclosed, ?_⟩
  rw [statusWord_err, statusWord_mode]
  by_cases herr : t.err = errNone
  · exact .inl herr
  · exact .inr (by rw [hclosed herr]; rfl)

end Sys2Proof.Machine
end

section
/-! The permutation, the single stage and the cascade as functions (40_permutation.md R100 to R102, 41_stage_cascade.md
R120 to R126): the engine's on blocks and the source's on bytes. -/

namespace Sys2Proof.Machine

/-! ### Permute on the bytes of a block (R102) -/

/-- A table entry names the same logical bit of a block and of its bytes (00_scope.md R11). -/
theorem logicalBit_unpack (v : BitVec 64) {e : Nat} (h1 : 1 ≤ e) (h64 : e ≤ 64) :
    logicalBit (unpack v) e = logicalBitOf v (e - 1) := by
  have hk : (e - 1) / 8 < 8 := by omega
  have hbyte : (unpack v).getD ((e - 1) / 8) 0#8 = byteAt v ((e - 1) / 8) := by
    simp [unpack, List.getD, hk]
  rw [logicalBit, if_pos ⟨h1, by rw [unpack_length]; omega⟩, hbyte, logicalBitOf_byteAt v (by omega)]

/-- A byte's bits are the logical bits it is made of, the first the most significant (R11). -/
theorem byteOfBits_getLsbD {bits : List Bool} (h : bits.length = 8) {q : Nat} (hq : q < 8) :
    (byteOfBits bits).getLsbD q = bits.getD (7 - q) false := by
  rw [byteOfBits, BitVec.getLsbD_setWidth, BitVec.getLsbD_eq_getMsbD, BitVec.getMsbD_ofBoolListBE, h]
  simp [hq]

/-- The eight logical bits that begin at position `8 j` are byte `j` (R11). -/
theorem byteOfBits_map_logicalBitOf (v : BitVec 64) {bits : List Bool} {j : Nat} (h : bits.length = 8) (hj : j < 8)
    (hbits : ∀ q, q < 8 → bits.getD q false = logicalBitOf v (8 * j + q)) : byteOfBits bits = byteAt v j := by
  apply BitVec.eq_of_getLsbD_eq
  intro q hq
  have hdiv : (8 * j + (7 - q)) / 8 = j := by omega
  have hmod : 7 - (8 * j + (7 - q)) % 8 = q := by omega
  rw [byteOfBits_getLsbD h hq, hbits _ (by omega), logicalBitOf_byteAt v (by omega), hdiv, hmod]

/-- Permute on a block's eight bytes never fails, and is PermuteReg on the block (R102). -/
theorem permute_unpack (v : BitVec 64) {table : List Nat} (hlen : table.length = 64)
    (hrange : ∀ e ∈ table, 1 ≤ e ∧ e ≤ 64) : permute (unpack v) table = .ok (unpack (permuteReg v table)) := by
  rw [permute, if_neg (by simp [hlen]), hlen]
  congr 1
  apply List.map_congr_left
  intro j hj
  have hj8 : j < 8 := List.mem_range.mp hj
  apply byteOfBits_map_logicalBitOf _ (by simp [hlen]; omega) hj8
  intro q hq
  have hpos : 8 * j + q < table.length := by omega
  have hentry : table.getD (8 * j + q) 0 = table[8 * j + q] := List.getD_eq_getElem _ _ hpos
  obtain ⟨h1, h64⟩ := hrange _ (List.getElem_mem hpos)
  rw [logicalBitOf_permuteReg v hlen (by omega), hentry, ← logicalBit_unpack v h1 h64]
  simp [List.getD, hq, hpos]

/-- Settles O8: entry by entry, Permute takes the byte's bit that PermuteReg takes from the block. -/
theorem permuteRegIsPermuteOnBytes : Obligations.PermuteRegIsPermuteOnBytes := by
  unfold Obligations.PermuteRegIsPermuteOnBytes
  refine fun v table hlen hrange => ⟨permute_unpack v hlen hrange, fun i hi => ?bits⟩
  case bits =>
    have hentry : table.getD i 0 = table[i] := List.getD_eq_getElem _ _ (by omega)
    obtain ⟨h1, -⟩ := hrange _ (List.getElem_mem (by omega : i < table.length))
    exact permuteReg_getLsbD v hlen hi (hentry ▸ h1)

/-! ### The stage and the cascade (41_stage_cascade.md R122, R123, R126) -/

/-- Settles O10: the second permutation of a stage undoes the first. -/
theorem singleStageIsIdentity : Obligations.SingleStageIsIdentity := by
  unfold Obligations.SingleStageIsIdentity
  exact fun t b k hok => ⟨forward_eq_self hok b k, reverse_eq_self hok b k⟩

/-- A table that meets R103 (a), as `permute_unpack` takes it. -/
theorem permute_unpack_of_range (v : BitVec 64) {table : List Nat} (h : tableRange table = true) :
    permute (unpack v) table = .ok (unpack (permuteReg v table)) := by
  refine permute_unpack v (tableRange_length h) ?_
  simp only [tableRange, Bool.and_eq_true, List.all_eq_true, decide_eq_true_eq] at h
  exact h.2

/-- The source's stage on an 8-byte block and key is the two block permutations (R120, R121). -/
theorem stageBytes_unpack (v : BitVec 64) {first second : List Nat} {key : List Byte} (hkey : key.length = 8)
    (hfirst : tableRange first = true) (hsecond : tableRange second = true) :
    stageBytes first second (unpack v) key = .ok (unpack (permuteReg (permuteReg v first) second)) := by
  rw [stageBytes, if_neg (by simp [hkey]), permute_unpack_of_range v hfirst]
  exact permute_unpack_of_range _ hsecond

/-- A second table that undoes the first gives the block back. -/
theorem stageBytes_eq_self {first second : List Nat} {block key : List Byte} (hblock : block.length = 8)
    (hkey : key.length = 8) (hfirst : tableRange first = true) (hsecond : tableRange second = true)
    (hundo : tableUndoes first second = true) : stageBytes first second block key = .ok block := by
  rw [← unpack_pack hblock, stageBytes_unpack _ hkey hfirst hsecond,
    permuteReg_permuteReg_of_undoes hfirst hsecond hundo]

/-- Settles O11: on 8-byte arguments the second permutation undoes the first; on others the size check fails. -/
theorem sourceStageIsIdentityOrSizeError : Obligations.SourceStageIsIdentityOrSizeError := by
  unfold Obligations.SourceStageIsIdentityOrSizeError
  intro t b k hok
  obtain ⟨⟨hip, hipinv⟩, hundo, hundo'⟩ := tables_ok hok
  exact ⟨fun hb hk => ⟨stageBytes_eq_self hb hk hip hipinv hundo, stageBytes_eq_self hb hk hipinv hip hundo'⟩,
    fun hsize => ⟨if_pos hsize, if_pos hsize⟩⟩

/-- Settles O12: the cascade is its definition and, stage by stage, the identity, which leaves of a block command the
padding and the XOR. -/
theorem cascadeIsIdentity : Obligations.CascadeIsIdentity := by
  unfold Obligations.CascadeIsIdentity
  refine ⟨fun t b => ⟨rfl, rfl, fun hok => ⟨cascadeEnc_eq_self hok b, cascadeDec_eq_self hok b⟩⟩,
    fun s len hok hmode _ _ => ?encBlock, fun s hok hmode => ?decBlock⟩
  case encBlock => exact ⟨_, exec_encBlock_of_enc len hmode, cascadeEnc_eq_self hok _, rfl⟩
  case decBlock =>
    exact ⟨_, exec_decBlock_of_dec_of_ge hmode le_rfl, congrArg (· ^^^ s.fb) (cascadeDec_eq_self hok s.ldin), rfl⟩

end Sys2Proof.Machine
end

section
/-! The port (20_memory.md R53 to R57), the bus (R55, R56), reset's release (70_reset_and_hazards.md R230) and the two
phases of a command (R234), as steps. -/

namespace Sys2Proof.Machine

variable {s t u : State} {rest : List Turn}

/-! ### Port transactions -/

/-- The step of a port read out of reset. -/
theorem step_read {idx : BitVec 5} (hturns : s.turns = .read idx :: rest) (hreset : s.resetLine = false) :
    step s = .next (observe idx { s with turns := rest }) :=
  (step_turn hturns).trans (transact_next _ hreset)

/-- STATUS written out to its 64 bits (10_state.md R26). -/
theorem statusWord_eq_append (e : Engine) :
    statusWord e = 0#56 ++ e.err ++ 0#1 ++ e.mode.code ++ BitVec.ofBool e.busy := by
  apply BitVec.eq_of_getLsbD_eq
  intro i hi
  rw [statusWord_getLsbD e hi]
  simp only [BitVec.getLsbD_append]
  split_ifs with hbusy hmode hzero herr
  · simp [hbusy]
  · rfl
  · simp
  · rfl
  · simpa using BitVec.getLsbD_of_ge e.err _ (by omega)

/-- STGCNT as a port read shows it (20_memory.md R54). -/
theorem setWidth_stgcnt (c : BitVec 32) : c.setWidth 64 = 0#32 ++ c := by
  rw [BitVec.setWidth_eq_append (by omega)]
  rfl

/-- Settles O32: the step shows what `readPort` returns, which is each register at its index and 0 elsewhere. -/
theorem portReadReturnsTheRegister : Obligations.PortReadReturnsTheRegister := by
  unfold Obligations.PortReadReturnsTheRegister
  intro s idx rest hturns hreset
  refine ⟨readPort idx s.toEngine, step_read hturns hreset, ?_, ?status, ?_, ?_, ?_, ?stgcnt,
    readPort_reserved s.toEngine⟩
  case status =>
    rintro rfl
    rw [readPort_status, statusWord_eq_append]
    cases s.mode <;> rfl
  case stgcnt =>
    rintro rfl
    rw [readPort_stgcnt, setWidth_stgcnt]
  all_goals
    rintro rfl
    rfl

/-- Settles O33: the step does what `writePort` does, which writes at CMD and DIN only. -/
theorem portWriteHasTheseEffects : Obligations.PortWriteHasTheseEffects := by
  unfold Obligations.PortWriteHasTheseEffects
  intro s idx v rest hturns hreset
  refine ⟨?accepted, ?dropped, ?din, fun h0 h2 => ?other⟩
  case accepted =>
    rintro rfl hbusy
    exact step_cmdWrite_accepts hturns hbusy hreset
  case dropped =>
    rintro rfl hbusy
    exact step_cmdWrite_dropped hturns hbusy hreset
  case din =>
    rintro rfl
    exact step_dinWrite hturns hreset
  case other => rw [step_write hturns hreset, writePort_other _ v h0 h2]

/-! ### The bus -/

/-- An access in the window selects by its low eight address bits: an index, for a whole register, or nothing
(20_memory.md R53, R55, R56). -/
theorem busIndex_in_window (p : Params) (low : BitVec 8) (bytes : Nat) :
    busIndex p.engineBase (p.enginePage ++ low) bytes =
      if bytes = 8 ∧ low.extractLsb' 0 3 = 0#3 then .port (low.extractLsb' 3 5) else .refused .notWholeRegister := by
  have hpage : (p.enginePage ++ low).extractLsb' 8 56 = p.enginePage := BitVec.extractLsb'_append_eq_left
  have halign : (p.enginePage ++ low).extractLsb' 0 3 = low.extractLsb' 0 3 :=
    BitVec.extractLsb'_append_eq_of_add_le (by decide)
  have hindex : (p.enginePage ++ low).extractLsb' 3 5 = low.extractLsb' 3 5 :=
    BitVec.extractLsb'_append_eq_of_add_le (by decide)
  rw [busIndex, engineBase_page, hpage, halign, hindex, if_neg (not_not.mpr rfl)]

/-- A whole register at ENGINE_BASE + 8 times the index is at the index (R53). -/
theorem busIndex_whole (p : Params) (idx : BitVec 5) :
    busIndex p.engineBase (p.enginePage ++ idx ++ 0#3) 8 = .port idx := by
  have haddr : p.enginePage ++ idx ++ 0#3 = p.enginePage ++ (idx ++ 0#3) := BitVec.append_assoc
  have halign : (idx ++ 0#3).extractLsb' 0 3 = 0#3 := BitVec.extractLsb'_append_eq_right
  have hindex : (idx ++ 0#3).extractLsb' 3 5 = idx := BitVec.extractLsb'_append_eq_left
  rw [haddr, busIndex_in_window, halign, hindex, if_pos ⟨rfl, rfl⟩]

/-- A narrow or misaligned access in the window is refused (R56, I5). -/
theorem busIndex_not_whole (p : Params) {low : BitVec 8} {bytes : Nat} (h : bytes < 8 ∨ low.extractLsb' 0 3 ≠ 0#3) :
    busIndex p.engineBase (p.enginePage ++ low) bytes = .refused .notWholeRegister := by
  rw [busIndex_in_window, if_neg]
  rintro ⟨hbytes, halign⟩
  exact h.elim (fun hlt => absurd hbytes (Nat.ne_of_lt hlt)) (fun hne => hne halign)

/-- A bus access does what the index it selects decides. -/
theorem takeTurn_busRead_port {addr : BitVec 64} {bytes : Nat} {idx : BitVec 5}
    (h : busIndex s.params.engineBase addr bytes = .port idx) :
    takeTurn (.busRead addr bytes) s = takeTurn (.read idx) s := by
  simp only [takeTurn, h]

theorem takeTurn_busWrite_port {addr v : BitVec 64} {bytes : Nat} {idx : BitVec 5}
    (h : busIndex s.params.engineBase addr bytes = .port idx) :
    takeTurn (.busWrite addr bytes v) s = takeTurn (.write idx v) s := by
  simp only [takeTurn, h]

theorem takeTurn_busRead_refused {addr : BitVec 64} {bytes : Nat} {why : Refusal}
    (h : busIndex s.params.engineBase addr bytes = .refused why) : takeTurn (.busRead addr bytes) s = .refused why := by
  simp only [takeTurn, h]

theorem takeTurn_busWrite_refused {addr v : BitVec 64} {bytes : Nat} {why : Refusal}
    (h : busIndex s.params.engineBase addr bytes = .refused why) :
    takeTurn (.busWrite addr bytes v) s = .refused why := by
  simp only [takeTurn, h]

/-- Settles O36: a bus access is decided by `busIndex`, and a port move at the index it selects is the same move. -/
theorem busAccessIsPortTransactionOrRefused : Obligations.BusAccessIsPortTransactionOrRefused := by
  unfold Obligations.BusAccessIsPortTransactionOrRefused
  intro s idx v rest
  have hwhole := busIndex_whole s.params idx
  refine ⟨?read, ?write, fun low bytes hnot => ?refused⟩
  case read =>
    rw [step_turn rfl, step_turn rfl]
    exact takeTurn_busRead_port (s := { s with turns := rest }) hwhole
  case write =>
    rw [step_turn rfl, step_turn rfl]
    exact takeTurn_busWrite_port (s := { s with turns := rest }) hwhole
  case refused =>
    have hrefused := busIndex_not_whole s.params hnot
    rw [step_turn rfl, step_turn rfl]
    exact ⟨takeTurn_busRead_refused (s := { s with turns := rest }) hrefused,
      takeTurn_busWrite_refused (s := { s with turns := rest }) hrefused⟩

/-! ### Reset and the phases of a command -/

/-- The step that releases reset, in any state (70_reset_and_hazards.md R230). -/
theorem step_releaseReset (hturns : s.turns = .releaseReset :: rest) :
    step s = .next (releaseReset { s with turns := rest }) :=
  step_turn hturns

/-- Settles O39: after assertion and release BUSY = 0, so the write is an acceptance, of DIN = 0. -/
theorem afterResetACommandIsAccepted : Obligations.AfterResetACommandIsAccepted := by
  unfold Obligations.AfterResetACommandIsAccepted
  intro s w rest
  rw [runSteps_succ 2 (step_assertReset rfl), runSteps_succ 1 (step_releaseReset rfl),
    runSteps_succ 0 (step_cmdWrite_accepts rfl rfl rfl)]
  rfl

/-- The engine's move changes nothing where no command runs (notes/assumptions/3.md). -/
theorem step_engine_idle (hturns : s.turns = .engine :: rest) (hbusy : s.busy = false) :
    step s = .next { s with turns := rest } :=
  (step_turn hturns).trans (engineMove_idle hbusy)

/-- A port write while a command runs changes DIN and OVR alone (R236, R237). -/
theorem writePort_toEngine_of_busy (idx : BitVec 5) (v : BitVec 64) (hbusy : s.busy = true) :
    (writePort idx v s).toEngine =
      { s.toEngine with din := (writePort idx v s).din, ovr := (writePort idx v s).ovr } := by
  by_cases h0 : idx = 0#5
  · subst h0
    rw [writePort_cmd, writeCmd_busy v hbusy]
  · by_cases h2 : idx = 2#5
    · subst h2
      rfl
    · rw [writePort_other s v h0 h2]

/-- A move that is neither the engine's nor reset's assertion changes DIN and OVR alone while a command runs (R234). -/
theorem takeTurn_toEngine_of_busy {turn : Turn} (hbusy : s.busy = true) (hengine : turn ≠ .engine)
    (hassert : turn ≠ .assertReset) (hmove : takeTurn turn s = .next u) :
    u.toEngine = { s.toEngine with din := u.din, ovr := u.ovr } := by
  obtain ⟨h, -⟩ | ⟨-, idx, turns, rfl⟩ | ⟨-, idx, v, rfl⟩ | ⟨h, -⟩ | ⟨-, rfl⟩ := takeTurn_cases hmove
  · exact absurd h hengine
  · rfl
  · exact writePort_toEngine_of_busy idx v hbusy
  · exact absurd h hassert
  · rfl

/-- What a word answers, as its command or as an illegal word (R234, 30_encoding.md R78). -/
theorem execWord_of_decoded {w : BitVec 64}
    (h : (∃ i, decode w = .instr i ∧ exec i s = .next t) ∨
      (∃ why, decode w = .illegal why ∧ t = recordError .illegalCmd s)) : execWord w s = .next t := by
  obtain ⟨i, hdec, hexec⟩ | ⟨why, hdec, rfl⟩ := h
  · exact (execWord_instr s hdec).trans hexec
  · exact execWord_illegal s hdec

/-- Settles O41: Accept is a CMD write of an idle engine, Complete the engine's move of a busy one, and the other moves
write no register that a command reads. -/
theorem commandExecutesInTwoPhases : Obligations.CommandExecutesInTwoPhases := by
  unfold Obligations.CommandExecutesInTwoPhases
  refine ⟨fun s w rest hturns hreset hbusy => step_cmdWrite_accepts hturns hbusy hreset,
    fun s t rest hturns hbusy hresult => ?complete, fun _ _ => step_engine_idle,
    fun s u turn rest hbusy hturns hengine hassert hstep => ?hostMove⟩
  case complete =>
    have hstep : step s = .next (finish t) := step_completes hturns hbusy (execWord_of_decoded hresult)
    exact ⟨fun hovr => by rw [hstep, finish_of_not_ovr hovr], fun hovr => by rw [hstep, finish_of_ovr hovr]⟩
  case hostMove =>
    rw [step_turn hturns] at hstep
    exact takeTurn_toEngine_of_busy (s := { s with turns := rest }) hbusy hengine hassert hstep

/-- The table's decoder is the engine's (30_encoding.md R76, R77). -/
theorem decode_of_decodeTableWord {nbits w : Nat} {i : Instr} (h : decodeTableWord nbits w = some i) :
    decode (tableWord nbits w) = .instr i := by
  unfold decodeTableWord at h
  split at h
  · rename_i j hdec
    cases h
    exact hdec
  · cases h

/-- Settles O42: the placed word is accepted and the engine is the next to move, so the step is its Complete. -/
theorem placedWordIsExecutedNext : Obligations.PlacedWordIsExecutedNext := by
  unfold Obligations.PlacedWordIsExecutedNext
  intro s t nbits w i hword hovr hexec
  have hdec : decode (tableWord nbits w) = .instr i := decode_of_decodeTableWord hword
  have hstep : step (s.withFetchWord nbits w) = .next (finish t) :=
    step_completes rfl rfl ((execWord_instr _ hdec).trans hexec)
  have htovr : t.ovr = false := (exec_ovr hexec).trans hovr
  rw [hstep, finish_of_not_ovr htovr]

end Sys2Proof.Machine
end

section
/-! Messages (42_chaining.md R140 to R147): XorBytes and padding on blocks, the closed forms of Encrypt and Decrypt,
their length laws, the round trip and the failures. -/

namespace Sys2Proof.Machine

/-! ### XorBytes (R140, R158) -/

/-- The XOR of blocks is lane by lane. -/
theorem byteAt_xor (a b : BitVec 64) (k : Nat) : byteAt (a ^^^ b) k = byteAt a k ^^^ byteAt b k :=
  BitVec.extractLsb'_xor

theorem xorBytes_of_length_eq {a b : List Byte} (h : a.length = b.length) :
    xorBytes a b = .ok (List.zipWith (fun x y => x ^^^ y) a b) := if_neg (not_not.mpr h)

theorem xorBytes_unpack (a b : BitVec 64) : xorBytes (unpack a) (unpack b) = .ok (unpack (a ^^^ b)) := by
  rw [xorBytes_of_length_eq (by simp)]
  simp only [unpack_eq, List.zipWith, byteAt_xor]

/-- Settles O48: XorBytes pairs the bytes, and the 64-bit XOR does the same in each byte lane. -/
theorem xorOfBlocksIsXorOfBytes : Obligations.XorOfBlocksIsXorOfBytes := by
  unfold Obligations.XorOfBlocksIsXorOfBytes
  refine ⟨fun a b => ⟨xorBytes_unpack a b, fun j _ => byteAt_xor a b j⟩, fun a b => ⟨fun h => if_pos h, fun h => ?_⟩⟩
  refine ⟨_, xorBytes_of_length_eq h, by simp [h], fun i hi => ?_⟩
  simp [List.getD, hi, ← h]

/-! ### Padding (R141) -/

/-- KeepMask has ones in the first `len` bytes. -/
theorem keepMask_getLsbD (len : Nat) {i : Nat} (hi : i < 64) :
    (keepMask len).getLsbD i = decide (64 - 8 * len ≤ i) := by
  have hones : keepMask len = BitVec.allOnes 64 <<< (64 - 8 * len) := rfl
  rw [hones, BitVec.getLsbD_shiftLeft, BitVec.getLsbD_allOnes]
  by_cases hlow : i < 64 - 8 * len
  · simp [hlow, Nat.not_le.mpr hlow]
  · have hbit : i - (64 - 8 * len) < 64 := by omega
    simp [hi, hlow, hbit, Nat.le_of_not_lt hlow]

/-- Padding a packed block keeps its first bytes (R141). -/
theorem padReg_pack (b : List Byte) {len : Nat} (hlen : len ≤ 8) : padReg (pack b) len = pack (b.take len) := by
  apply BitVec.eq_of_getLsbD_eq
  intro i hi
  rw [padReg, BitVec.getLsbD_and, keepMask_getLsbD len hi, pack_getLsbD _ hi, pack_getLsbD _ hi]
  by_cases hkept : 7 - i / 8 < len
  · have hbit : 64 - 8 * len ≤ i := by omega
    simp [List.getD, hkept, hbit]
  · have hbit : ¬64 - 8 * len ≤ i := by omega
    simp [List.getD, hkept, hbit]

/-- Zero bytes at the end of a list pack as missing ones do. -/
theorem pack_append_zeros (b : List Byte) (n : Nat) : pack (b ++ zeros n) = pack b := by
  apply pack_congr
  intro k _
  rcases Nat.lt_or_ge k b.length with hk | hk
  · rw [List.getD_append _ _ _ _ hk]
  · rw [List.getD_append_right _ _ _ _ hk, List.getD_eq_default _ _ hk, zeros, List.getD_eq_getElem?_getD,
      List.getElem?_replicate]
    split <;> rfl

/-- Padding in the datapath is padding of the slice (R141). -/
theorem padReg_pack_slice {s : List Byte} (h : s.length ≤ 8) : padReg (pack s) s.length = pack (padSlice s) := by
  rw [padReg_pack s h, List.take_length, padSlice, pack_append_zeros]

/-- Settles O49: the mask drops the filler, and the bytes it drops are read as zero. -/
theorem paddingInTheDatapathPadsTheSlice : Obligations.PaddingInTheDatapathPadsTheSlice := by
  unfold Obligations.PaddingInTheDatapathPadsTheSlice
  refine ⟨fun _ _ => rfl, by decide, fun s y _ h8 _ => ⟨?_, rfl⟩⟩
  rw [padReg_pack _ h8, List.take_left]
  exact (pack_append_zeros s _).symm

/-! ### Encrypt (R143, R146) -/

/-- The slices of a message have 1 to 8 bytes (R142). -/
theorem length_of_mem_slices {x s : List Byte} (h : s ∈ slices x) : 1 ≤ s.length ∧ s.length ≤ 8 := by
  obtain ⟨j, hj, rfl⟩ := List.mem_map.mp h
  have hj' : j < (x.length + 7) / 8 := List.mem_range.mp hj
  rw [List.length_take, List.length_drop]
  omega

theorem padSlice_length {s : List Byte} (h : s.length ≤ 8) : (padSlice s).length = 8 := by
  rw [padSlice, List.length_append, zeros_length]
  omega

/-- The stream of a message as blocks: the running XOR of the padded slices from the IV on (R146). -/
def cipherBlocks (iv : BitVec 64) (ss : List (List Byte)) : List (BitVec 64) :=
  (ss.map fun s => pack (padSlice s)).scanl (fun c x => x ^^^ c) iv

@[simp] theorem cipherBlocks_nil (iv : BitVec 64) : cipherBlocks iv [] = [iv] := rfl

@[simp] theorem cipherBlocks_cons (iv : BitVec 64) (s : List Byte) (ss : List (List Byte)) :
    cipherBlocks iv (s :: ss) = iv :: cipherBlocks (pack (padSlice s) ^^^ iv) ss := by
  rw [cipherBlocks, List.map_cons, List.scanl_cons, cipherBlocks]

/-- The IV is the stream's first block. -/
theorem cipherBlocks_eq_cons (iv : BitVec 64) (ss : List (List Byte)) :
    ∃ blocks, cipherBlocks iv ss = iv :: blocks := by
  cases ss with
  | nil => exact ⟨_, cipherBlocks_nil iv⟩
  | cons s ss => exact ⟨_, cipherBlocks_cons iv s ss⟩

@[simp] theorem cipherBlocks_length (iv : BitVec 64) (ss : List (List Byte)) :
    (cipherBlocks iv ss).length = ss.length + 1 := by simp [cipherBlocks]

/-- One round of Encrypt's loop on an 8-byte feedback value. -/
theorem encryptSlices_cons {t : Tables} (hok : t.ok = true) (prev : BitVec 64) {s : List Byte} (hs : s.length ≤ 8)
    (ss : List (List Byte)) :
    encryptSlices t (unpack prev) (s :: ss) = (encryptSlices t (unpack (pack (padSlice s) ^^^ prev)) ss).map
      (unpack (pack (padSlice s) ^^^ prev) ++ ·) := by
  have hxor : xorBytes (padSlice s) (unpack prev) = .ok (unpack (pack (padSlice s) ^^^ prev)) := by
    rw [← xorBytes_unpack, unpack_pack (padSlice_length hs)]
  rw [encryptSlices, hxor]
  simp only [Except.bind, pack_unpack, cascadeEnc_eq_self hok]

/-- Encrypt's loop, with the feedback value in front, gives the running XOR. -/
theorem encryptSlices_closed {t : Tables} (hok : t.ok = true) (prev : BitVec 64) {ss : List (List Byte)}
    (hss : ∀ s ∈ ss, s.length ≤ 8) :
    (encryptSlices t (unpack prev) ss).map (unpack prev ++ ·) = .ok ((cipherBlocks prev ss).flatMap unpack) := by
  induction ss generalizing prev with
  | nil => rfl
  | cons s ss ih =>
    rw [encryptSlices_cons hok prev (hss s (by simp)), ih _ fun s hs => hss s (by simp [hs]), cipherBlocks_cons]
    rfl

theorem encrypt_closed {t : Tables} (hok : t.ok = true) (p : List Byte) (iv : BitVec 64) :
    encrypt t p (unpack iv) = .ok ((cipherBlocks iv (slices p)).flatMap unpack) :=
  encryptSlices_closed hok iv fun _ hs => (length_of_mem_slices hs).2

/-! ### Decrypt (R144, R146) -/

/-- The plaintext of a list of ciphertext blocks after `prev`: each through the reverse cascade, XOR the one before. -/
def plainBlocks (t : Tables) (prev : BitVec 64) (cs : List (BitVec 64)) : List (BitVec 64) :=
  List.zipWith (fun c prev => cascadeDec t c ^^^ prev) cs (prev :: cs)

@[simp] theorem plainBlocks_cons (t : Tables) (prev c : BitVec 64) (cs : List (BitVec 64)) :
    plainBlocks t prev (c :: cs) = (cascadeDec t c ^^^ prev) :: plainBlocks t c cs := rfl

@[simp] theorem plainBlocks_length (t : Tables) (prev : BitVec 64) (cs : List (BitVec 64)) :
    (plainBlocks t prev cs).length = cs.length := by simp [plainBlocks]

/-- One round of Decrypt's loop on a whole block. -/
theorem decryptSlices_cons (t : Tables) {prev c : List Byte} (hprev : prev.length = 8) (hc : c.length = 8)
    (cs : List (List Byte)) :
    decryptSlices t prev (c :: cs) =
      (decryptSlices t c cs).map (unpack (cascadeDec t (pack c) ^^^ pack prev) ++ ·) := by
  have hxor : xorBytes (unpack (cascadeDec t (pack c))) prev = .ok (unpack (cascadeDec t (pack c) ^^^ pack prev)) := by
    rw [← xorBytes_unpack, unpack_pack hprev]
  rw [decryptSlices, if_neg (by omega), hxor]
  rfl

/-- Decrypt's loop on whole blocks does not fail. -/
theorem decryptSlices_closed (t : Tables) {prev : List Byte} (hprev : prev.length = 8) {cs : List (List Byte)}
    (hcs : ∀ c ∈ cs, c.length = 8) :
    decryptSlices t prev cs = .ok ((plainBlocks t (pack prev) (cs.map pack)).flatMap unpack) := by
  induction cs generalizing prev with
  | nil => rfl
  | cons c cs ih =>
    have hc : c.length = 8 := hcs c (by simp)
    rw [decryptSlices_cons t hprev hc, ih hc fun c hc => hcs c (by simp [hc]), List.map_cons, plainBlocks_cons]
    rfl

/-- The slices of a message of whole blocks have eight bytes (R142). -/
theorem length_of_mem_slices_whole {x c : List Byte} (hx : x.length % 8 = 0) (h : c ∈ slices x) : c.length = 8 := by
  obtain ⟨j, hj, rfl⟩ := List.mem_map.mp h
  have hj' : j < (x.length + 7) / 8 := List.mem_range.mp hj
  rw [List.length_take, List.length_drop]
  omega

/-- Decrypt on a well-formed stream. -/
theorem decrypt_closed (t : Tables) {s : List Byte} (h8 : 8 ≤ s.length) (hwhole : s.length % 8 = 0) :
    decrypt t s = .ok ((plainBlocks t (pack (s.take 8)) ((slices (s.drop 8)).map pack)).flatMap unpack) := by
  rw [decrypt, if_neg (by omega)]
  refine decryptSlices_closed t (by simp [h8]) fun c hc => length_of_mem_slices_whole ?_ hc
  rw [List.length_drop]
  omega

/-- Decrypt's loop fails at the last slice of a body that is no multiple of eight bytes (R144). -/
theorem decryptSlices_ragged (t : Tables) {x : List Byte} (hx : x.length % 8 ≠ 0) {prev : List Byte}
    (hprev : prev.length = 8) : decryptSlices t prev (slices x) = .error .lengthMismatch := by
  induction x using slices_induction generalizing prev with
  | nil => exact absurd rfl hx
  | slice x hne ih =>
    rw [slices_of_ne_nil hne]
    by_cases h8 : x.length < 8
    · rw [decryptSlices, if_pos (by simp [h8])]
    · have hfirst : (x.take 8).length = 8 := by simp; omega
      rw [decryptSlices_cons t hprev hfirst, ih (by rw [List.length_drop]; omega) hfirst]
      rfl

theorem decrypt_short (t : Tables) {s : List Byte} (h : s.length < 8) : decrypt t s = .error .truncatedInput :=
  if_pos h

theorem decrypt_ragged (t : Tables) {s : List Byte} (h8 : 8 ≤ s.length) (hragged : s.length % 8 ≠ 0) :
    decrypt t s = .error .lengthMismatch := by
  rw [decrypt, if_neg (by omega)]
  exact decryptSlices_ragged t (by rw [List.length_drop]; omega) (by simp [h8])

/-- Settles O53: the IV is checked first, then each slice of the body; whole blocks do not fail. -/
theorem decryptFailsExactlyOnMalformedStreams : Obligations.DecryptFailsExactlyOnMalformedStreams := by
  unfold Obligations.DecryptFailsExactlyOnMalformedStreams
  exact fun t s => ⟨decrypt_short t, decrypt_ragged t, fun h8 hwhole => ⟨_, decrypt_closed t h8 hwhole⟩⟩

/-- With tables that meet R103 the plaintext is the XOR of neighbouring blocks. -/
theorem plainBlocks_eq_zipWith {t : Tables} (hok : t.ok = true) (prev : BitVec 64) (cs : List (BitVec 64)) :
    plainBlocks t prev cs = List.zipWith (fun c prev => c ^^^ prev) cs (prev :: cs) := by
  simp only [plainBlocks, cascadeDec_eq_self hok]

/-- Settles O51: each loop's closed form, the cascades being the identity. -/
theorem chainingClosedForms : Obligations.ChainingClosedForms := by
  unfold Obligations.ChainingClosedForms
  refine fun t hok => ⟨encrypt_closed hok, fun s h8 hwhole => ?decrypt⟩
  case decrypt =>
    have hne : s ≠ [] := List.ne_nil_of_length_pos (by omega)
    rw [decrypt_closed t h8 hwhole, plainBlocks_eq_zipWith hok, slices_of_ne_nil hne]
    rfl

/-! ### The length laws and the round trip (R147) -/

theorem flatMap_unpack_length (bs : List (BitVec 64)) : (bs.flatMap unpack).length = 8 * bs.length := by
  induction bs with
  | nil => rfl
  | cons b bs ih =>
    rw [List.flatMap_cons, List.length_append, ih, unpack_length, List.length_cons]
    omega

/-- The slices of blocks written out are the blocks. -/
theorem slices_flatMap_unpack (bs : List (BitVec 64)) : slices (bs.flatMap unpack) = bs.map unpack := by
  induction bs with
  | nil => rfl
  | cons b bs ih =>
    have hne : unpack b ++ bs.flatMap unpack ≠ [] := List.ne_nil_of_length_pos (by simp)
    rw [List.flatMap_cons, slices_of_ne_nil hne, List.take_left' (unpack_length b), List.drop_left' (unpack_length b),
      ih]
    rfl

/-- A message's length laws: one block for the IV and one for each slice. -/
theorem cipher_length (iv : BitVec 64) (p : List Byte) :
    ((cipherBlocks iv (slices p)).flatMap unpack).length = 8 + 8 * ((p.length + 7) / 8) := by
  rw [flatMap_unpack_length, cipherBlocks_length, slices_length]
  omega

/-- Neighbouring blocks of the running XOR differ by the slice between them. -/
theorem zipWith_cipherBlocks (iv : BitVec 64) (ss : List (List Byte)) :
    List.zipWith (fun c prev => c ^^^ prev) (cipherBlocks iv ss).tail (cipherBlocks iv ss) =
      ss.map fun s => pack (padSlice s) := by
  induction ss generalizing iv with
  | nil => rfl
  | cons s ss ih =>
    obtain ⟨blocks, hblocks⟩ := cipherBlocks_eq_cons (pack (padSlice s) ^^^ iv) ss
    have hrest := ih (pack (padSlice s) ^^^ iv)
    rw [hblocks, List.tail_cons] at hrest
    rw [cipherBlocks_cons, hblocks, List.tail_cons, List.zipWith_cons_cons, hrest, BitVec.xor_assoc, BitVec.xor_self,
      BitVec.xor_zero, List.map_cons]

/-- The padded slices of a message are the message and the zeros that fill its last block (R141, R142). -/
theorem flatMap_padSlice (p : List Byte) : (slices p).flatMap padSlice = p ++ zeros ((8 - p.length % 8) % 8) := by
  induction p using slices_induction with
  | nil => rfl
  | slice p hne ih =>
    have hpos : 0 < p.length := List.length_pos_iff.mpr hne
    rw [slices_of_ne_nil hne, List.flatMap_cons, ih, padSlice, List.length_take, List.length_drop]
    rcases Nat.lt_or_ge p.length 8 with h8 | h8
    · have hfill : 8 - min 8 p.length = (8 - p.length % 8) % 8 := by omega
      have hnone : (8 - (p.length - 8) % 8) % 8 = 0 := by omega
      rw [List.take_of_length_le (by omega), List.drop_eq_nil_of_le (by omega), hfill, hnone]
      exact List.append_nil _
    · have hwhole : 8 - min 8 p.length = 0 := by omega
      have hfill : (8 - (p.length - 8) % 8) % 8 = (8 - p.length % 8) % 8 := by omega
      rw [hwhole, hfill, zeros, List.replicate_zero, List.append_nil, ← List.append_assoc, List.take_append_drop]

/-- Decrypt of a message's stream (R147). -/
theorem decrypt_encrypt {t : Tables} (hok : t.ok = true) (p : List Byte) (iv : BitVec 64) :
    decrypt t ((cipherBlocks iv (slices p)).flatMap unpack) = .ok (p ++ zeros ((8 - p.length % 8) % 8)) := by
  obtain ⟨blocks, hblocks⟩ := cipherBlocks_eq_cons iv (slices p)
  have hpairs := zipWith_cipherBlocks iv (slices p)
  have hlen := cipher_length iv p
  rw [hblocks] at hlen hpairs ⊢
  have hpack : ∀ bs : List (BitVec 64), (bs.map unpack).map pack = bs := fun bs => by simp [Function.comp_def]
  rw [decrypt_closed t (by omega) (by omega), plainBlocks_eq_zipWith hok, List.flatMap_cons,
    List.take_left' (unpack_length iv), List.drop_left' (unpack_length iv), pack_unpack, slices_flatMap_unpack, hpack]
  rw [List.tail_cons] at hpairs
  rw [hpairs, ← flatMap_padSlice, List.flatMap_map]
  congr 1
  apply List.flatMap_congr
  exact fun s hs => unpack_pack (padSlice_length (length_of_mem_slices hs).2)

/-- Settles O52: the stream is one block for the IV and one for each slice; Decrypt gives the padded slices back, and
answers as many blocks as the body has. -/
theorem decryptOfEncryptIsThePaddedPlaintext : Obligations.DecryptOfEncryptIsThePaddedPlaintext := by
  unfold Obligations.DecryptOfEncryptIsThePaddedPlaintext
  refine fun t hok => ⟨fun p iv hiv => ?roundTrip, fun s out hout => ?length⟩
  case roundTrip =>
    have hlen := cipher_length (pack iv) p
    have hdec := decrypt_encrypt hok p (pack iv)
    have henc := encrypt_closed hok p (pack iv)
    rw [unpack_pack hiv] at henc
    refine ⟨_, henc, hlen, by omega, by omega, by rw [List.length_drop]; omega, hdec, fun hragged hsame => ?_⟩
    rw [hdec, Except.ok.injEq] at hsame
    have hzeros := congrArg List.length hsame
    rw [List.length_append, zeros_length] at hzeros
    omega
  case length =>
    have h8 : ¬s.length < 8 := fun h => by simp [decrypt_short t h] at hout
    have hwhole : s.length % 8 = 0 := by
      by_contra h
      simp [decrypt_ragged t (Nat.le_of_not_lt h8) h] at hout
    rw [decrypt_closed t (by omega) hwhole] at hout
    cases hout
    rw [flatMap_unpack_length, plainBlocks_length, List.length_map, slices_length, List.length_drop]
    omega

end Sys2Proof.Machine
end

section
/-! Runs (70_reset_and_hazards.md R234 to R243, 30_encoding.md R81): how a running command completes and a poll of it
ends, when a run is over, and what a host reports of it (60_exceptions.md R208). -/

namespace Sys2Proof.Machine

variable {s t u : State} {rest : List Turn} {m n : Nat}

/-! ### Polls (30_encoding.md R81) -/

/-- What a STATUS read shows the host (20_memory.md R54). -/
def statusRead (e : Engine) : ReadValue := ⟨1#5, statusWord e⟩

/-- A poll that reads BUSY = 1 goes on with one read fewer to come before the engine's move. -/
theorem pollRead_busy (lat : Nat) (hbusy : s.busy = true) :
    pollRead lat s = observe 1#5 { s with turns := pollTurns lat ++ s.turns } := by
  cases lat with
  | zero => exact pollRead_zero hbusy
  | succ n => exact pollRead_succ n hbusy

/-- A poll's moves: its engine's move where that comes first, and its next read. -/
theorem pollTurns_cases (lat : Nat) : pollTurns lat = [.engine, .poll 0] ∨ ∃ k, pollTurns lat = [.poll k] := by
  cases lat with
  | zero => exact .inl rfl
  | succ n => exact .inr ⟨n, rfl⟩

/-- A poll's step is a STATUS read, with the poll's further moves before the host's other ones. -/
theorem step_poll_eq_read {lat : Nat} (hturns : s.turns = .poll lat :: rest) :
    (s.busy = false → step s = step { s with turns := .read 1#5 :: rest }) ∧
    (s.busy = true → step s = step { s with turns := .read 1#5 :: pollTurns lat ++ rest }) := by
  refine ⟨fun hidle => ?idle, fun hbusy => ?busy⟩
  case idle =>
    rw [step_turn hturns, step_turn rfl]
    exact congrArg (transact _) (pollRead_idle (s := { s with turns := rest }) lat hidle)
  case busy =>
    rw [step_turn hturns, step_turn (rest := pollTurns lat ++ rest) rfl]
    exact congrArg (transact _) (pollRead_busy (s := { s with turns := rest }) lat hbusy)

/-- The step of a poll out of reset, of an idle engine. -/
theorem step_poll_idle {lat : Nat} (hturns : s.turns = .poll lat :: rest) (hbusy : s.busy = false)
    (hreset : s.resetLine = false) :
    step s = .next { s with turns := rest, seen := s.seen ++ [statusRead s.toEngine] } :=
  ((step_poll_eq_read hturns).1 hbusy).trans (step_read (s := { s with turns := .read 1#5 :: rest }) rfl hreset)

/-- The step of a poll out of reset, of a busy engine. -/
theorem step_poll_busy {lat : Nat} (hturns : s.turns = .poll lat :: rest) (hbusy : s.busy = true)
    (hreset : s.resetLine = false) :
    step s = .next { s with turns := pollTurns lat ++ rest, seen := s.seen ++ [statusRead s.toEngine] } :=
  ((step_poll_eq_read hturns).2 hbusy).trans
    (step_read (s := { s with turns := .read 1#5 :: pollTurns lat ++ rest }) rfl hreset)

/-- Complete writes neither DIN nor the parameters, the moves to come or what the host has read. -/
theorem complete_keeps (h : complete s = .next u) :
    u.din = s.din ∧ u.params = s.params ∧ u.turns = s.turns ∧ u.seen = s.seen := by
  obtain ⟨t, hexec, rfl⟩ | ⟨-, rfl⟩ := complete_cases h
  · obtain ⟨dout, fb, mode, err, stgcnt, draws, rfl⟩ := execWord_frame hexec
    exact ⟨finish_din _, finish_params _, finish_turns _, finish_seen _⟩
  · exact ⟨rfl, rfl, rfl, rfl⟩

/-- Complete does not read the moves to come or what the host has read. -/
theorem complete_with (turns : List Turn) (seen : List ReadValue) (h : complete s = .next u) :
    complete { s with turns := turns, seen := seen } = .next { u with turns := turns, seen := seen } := by
  obtain ⟨hdin, -⟩ := complete_keeps h
  calc complete { s with turns := turns, seen := seen }
    _ = .next { u with din := s.din, turns := turns, seen := seen } := complete_reframe s.din turns seen h
    _ = _ := by rw [← hdin]

/-- A poll of a command that can complete reads STATUS with BUSY = 1 `n` times, and once more after the completion
(R235, R241). -/
theorem runSteps_poll (n : Nat) (hbusy : s.busy = true) (hreset : s.resetLine = false) (hdone : complete s = .next u)
    (hidle : u.busy = false) (seen : List ReadValue) :
    runSteps (n + 2) { s with turns := pollTurns n ++ rest, seen := seen } = .next { u with
      turns := rest
      seen := seen ++ List.replicate n (statusRead s.toEngine) ++ [statusRead u.toEngine] } := by
  induction n generalizing seen with
  | zero =>
    have hengine : step { s with turns := pollTurns 0 ++ rest, seen := seen } =
        .next { u with turns := .poll 0 :: rest, seen := seen } :=
      (step_engine_busy (s := { s with turns := pollTurns 0 ++ rest, seen := seen }) rfl hbusy).trans
        (complete_with (s := s) _ seen hdone)
    have hread : step { u with turns := .poll 0 :: rest, seen := seen } =
        .next { u with turns := rest, seen := seen ++ [statusRead u.toEngine] } :=
      step_poll_idle rfl hidle ((complete_resetLine hdone).trans hreset)
    rw [runSteps_succ 1 hengine, runSteps_succ 0 hread, runSteps_zero, List.replicate_zero, List.append_nil]
  | succ n ih =>
    have hread : step { s with turns := pollTurns (n + 1) ++ rest, seen := seen } =
        .next { s with turns := pollTurns n ++ rest, seen := seen ++ [statusRead s.toEngine] } :=
      step_poll_busy rfl hbusy hreset
    rw [runSteps_succ _ hread, ih, List.append_assoc seen, List.replicate_succ, List.singleton_append]

/-- A CMD write by an idle engine out of reset, and the poll of it (R241). -/
theorem runSteps_issue (w : BitVec 64) (n : Nat) (hrest : AtRest s) (hdone : atomicCommand w s = .next u)
    (hidle : u.busy = false) :
    runSteps (n + 3) { s with turns := .write 0#5 w :: pollTurns n ++ rest } = .next { u with
      turns := rest
      seen := s.seen ++ List.replicate n (statusRead { s.toEngine with busy := true }) ++
        [statusRead u.toEngine] } := by
  obtain ⟨hbusy, -, hreset⟩ := hrest
  have haccept : step { s with turns := .write 0#5 w :: pollTurns n ++ rest } =
      .next (accept w { s with turns := pollTurns n ++ rest }) := step_cmdWrite_accepts rfl hbusy hreset
  rw [runSteps_succ _ haccept]
  exact runSteps_poll (s := accept w s) n rfl hreset hdone hidle s.seen

/-! ### Runs (R243) -/

/-- With no move left and no command running nothing moves (60_exceptions.md R216). -/
theorem step_runOver (h : RunOver s) : step s = .next s :=
  (step_noTurn h.1).trans (engineMove_idle h.2)

theorem runSteps_runOver (n : Nat) (h : RunOver s) : runSteps n s = .next s := by
  induction n with
  | zero => rfl
  | succ n ih => rw [runSteps_succ n (step_runOver h), ih]

/-- Two runs of one state that are over have ended in the same state. -/
theorem runOver_unique_of_le (hle : m ≤ n) (ht : runSteps m s = .next t) (hover : RunOver t)
    (hu : runSteps n s = .next u) : u = t := by
  have hrest : runSteps (m + (n - m)) s = runSteps (n - m) t := runSteps_add m (n - m) ht
  rw [Nat.add_sub_cancel' hle, hu, runSteps_runOver _ hover] at hrest
  exact Host.Outcome.next.inj hrest

theorem runOver_unique (ht : runSteps m s = .next t) (htover : RunOver t) (hu : runSteps n s = .next u)
    (huover : RunOver u) : u = t := by
  rcases Nat.le_total m n with hle | hle
  · exact runOver_unique_of_le hle ht htover hu
  · exact (runOver_unique_of_le hle hu huover ht).symm

/-- A step leaves what the host has read, and adds a read at most. -/
theorem step_seen (hstep : step s = .next u) : s.seen <+: u.seen := by
  obtain ⟨rest, hmove | ⟨-, idx, rfl⟩ | ⟨-, idx, v, rfl⟩ | rfl | rfl⟩ := step_cases hstep
  · obtain ⟨-, t, hexec, rfl⟩ | rfl := engineMove_cases hmove
    · obtain ⟨dout, fb, mode, err, stgcnt, draws, rfl⟩ := execWord_frame hexec
      rw [finish_seen]
    · exact List.prefix_rfl
  · exact List.prefix_append _ _
  · rw [writePort_seen]
  · exact List.prefix_rfl
  · exact List.prefix_rfl

theorem runSteps_seen (hrun : runSteps n s = .next t) : s.seen <+: t.seen :=
  runSteps_keeps (P := fun u => s.seen <+: u.seen) (fun _ _ h hstep => h.trans (step_seen hstep)) List.prefix_rfl hrun

/-- Settles O57: a state whose run is over is a fixed point of the step, so two ends of a run are one; the reads of a
run are what it adds to the host's; a CMD write leaves BUSY = 1. -/
theorem runsEndOnceAndObserveTheirReads : Obligations.RunsEndOnceAndObserveTheirReads := by
  unfold Obligations.RunsEndOnceAndObserveTheirReads
  refine ⟨fun _ => step_runOver, fun program s t hrun => ?ended, fun s c hrest => ?running⟩
  case ended =>
    obtain ⟨n, hsteps, hover⟩ := hrun
    refine ⟨hover, ?reads, rfl, fun u ⟨m, hsteps', hover'⟩ => runOver_unique hsteps hover hsteps' hover'⟩
    case reads => exact List.prefix_append_drop (runSteps_seen (s := { s with turns := programTurns program }) hsteps)
  case running =>
    obtain ⟨hbusy, -, hreset⟩ := hrest
    refine ⟨_, runSteps_succ 0 (step_cmdWrite_accepts rfl hbusy hreset), rfl, rfl, fun hover => ?_⟩
    exact absurd hover.2 (by simp)

/-- Settles O45: the poll's reads before the completion show the STATUS of acceptance, its last the new one, and the
registers are those of Accept and Complete in one. -/
theorem polledCommandIsAtomic : Obligations.PolledCommandIsAtomic := by
  unfold Obligations.PolledCommandIsAtomic
  intro s t w n hrest hatomic hidle
  have hstatus : statusRead { s.toEngine with busy := true } =
      ⟨1#5, 0#56 ++ s.err ++ 0#1 ++ s.mode.code ++ 1#1⟩ := by
    rw [statusRead, statusWord_eq_append]
    rfl
  have hturns : t.turns = [] := (complete_keeps hatomic).2.2.1
  have hrun := runSteps_issue (s := { s with turns := [] }) (rest := []) w n hrest hatomic hidle
  rw [hstatus] at hrun
  refine ⟨n + 3, hrun.trans ?_, hturns, hidle⟩
  rw [← hturns]
  rfl

/-! ### Completion (R235) -/

/-- With a random source that answers, every word's execution ends (I12), and so Complete ends the command. -/
theorem complete_of_rngReady (s : State) (h : s.params.rngReady = true) :
    ∃ u, complete s = .next u ∧ u.busy = false := by
  obtain ⟨u, hu⟩ := complete_total s
  refine ⟨u, hu, ?_⟩
  obtain ⟨t, -, rfl⟩ | ⟨hfault, -⟩ := complete_cases hu
  · exact finish_busy t
  · exfalso
    cases hdec : decode s.lcmd with
    | instr i =>
      obtain ⟨-, hnot⟩ := exec_fault ((execWord_instr s hdec).symm.trans hfault)
      exact absurd (h.symm.trans hnot) (by decide)
    | illegal why =>
      rw [execWord_illegal s hdec] at hfault
      cases hfault

/-- A host's transaction while a command runs leaves it running. -/
theorem writePort_busy (idx : BitVec 5) (v : BitVec 64) (hbusy : s.busy = true) : (writePort idx v s).busy = true := by
  rw [writePort_toEngine_of_busy idx v hbusy]
  exact hbusy

/-- A read or a write with a command running, out of reset. -/
theorem step_transaction_of_busy {turn : Turn} (hturns : s.turns = turn :: rest)
    (hturn : (∃ idx, turn = .read idx) ∨ ∃ idx v, turn = .write idx v) (hbusy : s.busy = true)
    (hreset : s.resetLine = false) :
    ∃ u, step s = .next u ∧ u.busy = true ∧ u.resetLine = false ∧ u.params = s.params ∧ u.turns = rest := by
  obtain ⟨idx, rfl⟩ | ⟨idx, v, rfl⟩ := hturn
  · exact ⟨_, step_read hturns hreset, hbusy, hreset, rfl, rfl⟩
  · refine ⟨_, step_write hturns hreset, writePort_busy (s := { s with turns := rest }) idx v hbusy, ?_, ?_, ?_⟩
    · rwa [writePort_resetLine]
    · rw [writePort_params]
    · rw [writePort_turns]

/-- After the host's last transaction the engine moves, and the command completes. -/
theorem runSteps_completes (hbusy : s.busy = true) (hreset : s.resetLine = false) (hready : s.params.rngReady = true)
    (hturns : ∀ turn ∈ s.turns, (∃ idx, turn = .read idx) ∨ ∃ idx v, turn = .write idx v) :
    ∃ t, runSteps (s.turns.length + 1) s = .next t ∧ t.busy = false := by
  generalize hlist : s.turns = turns at hturns ⊢
  induction turns generalizing s with
  | nil =>
    obtain ⟨u, hu, hidle⟩ := complete_of_rngReady s hready
    exact ⟨u, runSteps_succ 0 ((step_noTurn hlist).trans ((engineMove_busy hbusy).trans hu)), hidle⟩
  | cons turn rest ih =>
    obtain ⟨hturn, hothers⟩ := List.forall_mem_cons.mp hturns
    obtain ⟨u, hstep, hubusy, hureset, huparams, huturns⟩ := step_transaction_of_busy hlist hturn hbusy hreset
    rw [List.length_cons, runSteps_succ _ hstep]
    exact ih hubusy hureset (huparams ▸ hready) huturns hothers

/-- Settles O46: the host's transactions by induction on their list, the poll by induction on its latency. -/
theorem everyAcceptedCommandCompletes : Obligations.EveryAcceptedCommandCompletes := by
  unfold Obligations.EveryAcceptedCommandCompletes
  refine fun s hbusy hreset hready => ⟨runSteps_completes hbusy hreset hready, fun lat rest hturns => ?poll⟩
  case poll =>
    obtain ⟨u, hu, hidle⟩ := complete_of_rngReady s hready
    have hrun := runSteps_poll (rest := rest) (lat + 1) hbusy hreset hu hidle s.seen
    have hpoll : pollTurns (lat + 1) ++ rest = s.turns := hturns.symm
    rw [hpoll] at hrun
    exact ⟨_, hrun, hidle, rfl, rfl⟩

/-! ### A silent random source (I12) -/

/-- A state in which a poll of the command running in `s` waits for its completion. -/
def PollWaits (s : State) (rest : List Turn) (t : State) : Prop :=
  t.toEngine = s.toEngine ∧ t.draws = s.draws ∧ t.params = s.params ∧ t.resetLine = false ∧
  (t.turns = .engine :: .poll 0 :: rest ∨ ∃ k, t.turns = .poll k :: rest)

/-- Where each state with `P` steps to one with `P`, a run of any length answers a state with `P`. -/
theorem runSteps_answers {P : State → Prop} (hkeeps : ∀ s, P s → ∃ u, step s = .next u ∧ P u) (hs : P s) (n : Nat) :
    ∃ t, runSteps n s = .next t ∧ P t := by
  induction n generalizing s with
  | zero => exact ⟨s, rfl, hs⟩
  | succ n ih =>
    obtain ⟨u, hstep, hu⟩ := hkeeps s hs
    rw [runSteps_succ n hstep]
    exact ih hu

/-- `enc.start rng` with a silent source is stuck. -/
theorem exec_encStart_silent (h : s.params.rngReady = false) :
    exec (.encStart .rng) s = .fault .drawUnanswered :=
  if_neg (by simp [h])

/-- Complete leaves the command waiting. -/
theorem complete_silent (hsilent : s.params.rngReady = false) (hdec : decode s.lcmd = .instr (.encStart .rng)) :
    complete s = .next s := by
  rw [complete, execWord_instr s hdec, exec_encStart_silent hsilent]

theorem step_engine_silent (hturns : s.turns = .engine :: rest) (hbusy : s.busy = true)
    (hsilent : s.params.rngReady = false) (hdec : decode s.lcmd = .instr (.encStart .rng)) :
    step s = .next { s with turns := rest } :=
  (step_engine_busy hturns hbusy).trans (complete_silent (s := { s with turns := rest }) hsilent hdec)

/-- A step of a waiting poll leaves it waiting. -/
theorem step_pollWaits (hbusy : s.busy = true) (hsilent : s.params.rngReady = false)
    (hdec : decode s.lcmd = .instr (.encStart .rng)) (t : State) (ht : PollWaits s rest t) :
    ∃ u, step t = .next u ∧ PollWaits s rest u := by
  obtain ⟨hengine, hdraws, hparams, hreset, hturns | ⟨k, hturns⟩⟩ := ht
  all_goals have htbusy : t.busy = true := by rw [hengine, hbusy]
  · have htdec : decode t.lcmd = .instr (.encStart .rng) := by rw [hengine, hdec]
    exact ⟨_, step_engine_silent hturns htbusy (hparams ▸ hsilent) htdec, hengine, hdraws, hparams, hreset,
      .inr ⟨0, rfl⟩⟩
  · refine ⟨_, step_poll_busy hturns htbusy hreset, hengine, hdraws, hparams, hreset, ?_⟩
    obtain h | ⟨j, h⟩ := pollTurns_cases k
    · exact .inl (congrArg (· ++ rest) h)
    · exact .inr ⟨j, congrArg (· ++ rest) h⟩

/-- Settles O47: the engine's move leaves the state but for the move, so a poll finds BUSY = 1 at each of its reads. -/
theorem silentSourceLeavesTheCommandWaiting : Obligations.SilentSourceLeavesTheCommandWaiting := by
  unfold Obligations.SilentSourceLeavesTheCommandWaiting
  intro s rest hsilent hbusy hdec
  refine ⟨fun hturns => ⟨exec_encStart_silent hsilent, step_engine_silent hturns hbusy hsilent hdec⟩,
    fun lat n hreset hturns => ?poll⟩
  case poll =>
    obtain ⟨t, hrun, hengine, hdraws, -, -, hwaits⟩ :=
      runSteps_answers (step_pollWaits (rest := rest) hbusy hsilent hdec)
        ⟨rfl, rfl, rfl, hreset, .inr ⟨lat, hturns⟩⟩ n
    exact ⟨t, hrun, hengine, hdraws, hwaits⟩

/-! ### The host's lines (30_encoding.md R81) -/

/-- The seven lines of text, read. -/
theorem parseLine_listed :
    parseLine "poll" = some .poll ∧ parseLine "issue nop" = some (.issue (.instr .nop)) ∧
    parseLine "cmd enc.block" = some (.cmd (.instr (.encBlock 8))) ∧
    parseLine "cmd dec.block" = some (.cmd (.instr (.decBlock 8))) ∧
    parseLine "cmd dec.start" = some (.cmd (.instr (.decStart 8))) ∧
    parseLine "issue enc.block" = some (.issue (.instr (.encBlock 8))) ∧
    parseLine "ld 48 45 4C" = some (.ld [0x48#8, 0x45#8, 0x4C#8]) :=
  ⟨rfl, rfl, rfl, rfl, rfl, rfl, rfl⟩

/-- Settles O56: a poll's step is a STATUS read's with the poll's further moves after it; the lines' moves and texts by
definition; `ld` packs its bytes. -/
theorem pseudoInstructionsExpandAsListed : Obligations.PseudoInstructionsExpandAsListed := by
  unfold Obligations.PseudoInstructionsExpandAsListed
  refine ⟨fun s lat rest hturns => ?poll, pollTurns_cases, fun _ _ => ⟨rfl, rfl⟩, parseLine_listed,
    fun bytes lat _ _ => ⟨_, rfl, fun _ => byteAt_pack bytes⟩⟩
  case poll =>
    rw [readPort_status, statusWord_busy]
    obtain ⟨hidle, hbusy⟩ := step_poll_eq_read hturns
    exact ⟨hidle, fun h => ⟨_, hbusy h, pollTurns_cases lat⟩⟩

/-! ### Reports (60_exceptions.md R208) -/

/-- The last STATUS read decides, whatever other registers are read after it. -/
theorem lastStatus_of_last (reads : List ReadValue) (v : BitVec 64) {others : List ReadValue}
    (h : ∀ r ∈ others, r.idx ≠ 1#5) : lastStatus (reads ++ [⟨1#5, v⟩] ++ others) = some v := by
  have hothers : others.filter (fun r => r.idx == PortReg.status.idx) = [] :=
    List.filter_eq_nil_iff.mpr fun r hr => by simpa [PortReg.idx] using h r hr
  have hread : [ReadValue.mk 1#5 v].filter (fun r => r.idx == PortReg.status.idx) = [⟨1#5, v⟩] := rfl
  rw [lastStatus, List.filter_append, hothers, List.append_nil, List.filter_append, hread, List.getLast?_append]
  rfl

theorem lastStatus_of_none {others : List ReadValue} (h : ∀ r ∈ others, r.idx ≠ 1#5) : lastStatus others = none := by
  have hothers : others.filter (fun r => r.idx == PortReg.status.idx) = [] :=
    List.filter_eq_nil_iff.mpr fun r hr => by simpa [PortReg.idx] using h r hr
  rw [lastStatus, hothers]
  rfl

theorem report_of_lastStatus {reads : List ReadValue} {v : BitVec 64} (h : lastStatus reads = some v) :
    report reads = if statusErr v = errNone then .success (collected reads) else .failure (statusErr v) := by
  rw [report, h]

theorem report_of_no_status {reads : List ReadValue} (h : lastStatus reads = none) : report reads = .noStatus := by
  rw [report, h]

theorem runFails_of_success {reads : List ReadValue} {bytes : List Byte} (h : report reads = .success bytes) :
    runFails reads = false := by
  rw [runFails, h]

theorem runFails_of_failure {reads : List ReadValue} {code : BitVec 4} (h : report reads = .failure code) :
    runFails reads = true := by
  rw [runFails, h]

/-- Settles O58: `lastStatus` is the last STATUS read, and ERR in it decides the report. -/
theorem outcomeIsTheLastStatusRead : Obligations.OutcomeIsTheLastStatusRead := by
  unfold Obligations.OutcomeIsTheLastStatusRead
  refine ⟨fun reads others v h => ?read, fun others h => ?unread⟩
  case read =>
    have hreport := report_of_lastStatus (lastStatus_of_last reads v h)
    by_cases herr : statusErr v = errNone
    · rw [if_pos herr] at hreport
      exact ⟨iff_of_false (Bool.eq_false_iff.mp (runFails_of_success hreport)) (not_not.mpr herr),
        fun hne => absurd herr hne, fun _ => hreport⟩
    · rw [if_neg herr] at hreport
      exact ⟨iff_of_true (runFails_of_failure hreport) herr, fun _ => hreport, fun heq => absurd heq herr⟩
  case unread =>
    have hreport := report_of_no_status (lastStatus_of_none h)
    exact ⟨hreport, by rw [runFails, hreport]⟩

end Sys2Proof.Machine
end

section
/-! The drivers (42_chaining.md R153 to R155): host programs run line by line, from a host at rest to a host at rest,
and the two drivers' runs against Encrypt and Decrypt. -/

namespace Sys2Proof.Machine

variable {s t u : State} {rest : List Turn} {lines : List Line} {out : List Byte}

/-! ### What the host collects (20_memory.md R63) -/

theorem collected_append (a b : List ReadValue) : collected (a ++ b) = collected a ++ collected b := by
  rw [collected, List.filter_append, List.flatMap_append, collected, collected]

/-- Reads of other registers add no output. -/
theorem collected_of_no_dout {reads : List ReadValue} (h : ∀ r ∈ reads, r.idx ≠ 3#5) : collected reads = [] := by
  have hnone : reads.filter (fun r => r.idx == PortReg.dout.idx) = [] :=
    List.filter_eq_nil_iff.mpr fun r hr => by simpa [PortReg.idx] using h r hr
  rw [collected, hnone]
  rfl

theorem collected_dout (v : BitVec 64) : collected [⟨3#5, v⟩] = unpack v := List.append_nil _

/-- A poll's reads add no output. -/
theorem collected_poll (n : Nat) (e e' : Engine) :
    collected (List.replicate n (statusRead e) ++ [statusRead e']) = [] := by
  refine collected_of_no_dout fun r hr => ?_
  obtain h | h := List.mem_append.mp hr
  · rw [List.eq_of_mem_replicate h]
    exact (by decide : (1#5 : BitVec 5) ≠ 3#5)
  · rw [List.mem_singleton.mp h]
    exact (by decide : (1#5 : BitVec 5) ≠ 3#5)

/-! ### Running a host program line by line -/

/-- The program's moves lead from `s` to `t`, a host at rest, whatever moves come after them; the host's DOUT reads
have collected `out`. -/
structure HostRun (program : List (Line × Nat)) (s t : State) (out : List Byte) : Prop where
  steps : ∀ rest, ∃ n, runSteps n { s with turns := programTurns program ++ rest } = .next { t with turns := rest }
  atRest : AtRest t
  params : t.params = s.params
  reads : ∃ reads, t.seen = s.seen ++ reads ∧ collected reads = out

theorem programTurns_append (a b : List (Line × Nat)) : programTurns (a ++ b) = programTurns a ++ programTurns b := by
  induction a with
  | nil => rfl
  | cons entry a ih => rw [List.cons_append, programTurns, programTurns, ih, List.append_assoc]

theorem programTurns_singleton (line : Line) (lat : Nat) : programTurns [(line, lat)] = line.turns lat :=
  List.append_nil _

/-- Two programs, one after the other. -/
theorem HostRun.append {a b : List (Line × Nat)} {out' : List Byte} (ha : HostRun a s u out) (hb : HostRun b u t out') :
    HostRun (a ++ b) s t (out ++ out') where
  steps rest := by
    obtain ⟨m, hm⟩ := ha.steps (programTurns b ++ rest)
    obtain ⟨n, hn⟩ := hb.steps rest
    refine ⟨m + n, ?_⟩
    rw [programTurns_append, List.append_assoc, runSteps_add m n hm, hn]
  atRest := hb.atRest
  params := hb.params.trans ha.params
  reads := by
    obtain ⟨ra, hseen, rfl⟩ := ha.reads
    obtain ⟨rb, hseen', rfl⟩ := hb.reads
    exact ⟨ra ++ rb, by rw [hseen', hseen, List.append_assoc], collected_append ra rb⟩

theorem hostRun_nil (hrest : AtRest s) : HostRun [] s s [] where
  steps _ := ⟨0, rfl⟩
  atRest := hrest
  params := rfl
  reads := ⟨[], (List.append_nil _).symm, rfl⟩

/-- A line that writes DIN. -/
theorem hostRun_dinWrite {line : Line} {lat : Nat} {v : BitVec 64} (hline : line.turns lat = [.write 2#5 v])
    (hrest : AtRest s) : HostRun [(line, lat)] s { s with din := v } [] where
  steps rest := by
    rw [programTurns_singleton, hline]
    exact ⟨1, runSteps_succ 0 (step_dinWrite rfl hrest.2.2)⟩
  atRest := hrest
  params := rfl
  reads := ⟨[], (List.append_nil _).symm, rfl⟩

/-- A line that reads a register. -/
theorem hostRun_read {line : Line} {lat : Nat} {idx : BitVec 5} (hline : line.turns lat = [.read idx])
    (hrest : AtRest s) : HostRun [(line, lat)] s (observe idx s) (collected [⟨idx, readPort idx s.toEngine⟩]) where
  steps rest := by
    rw [programTurns_singleton, hline]
    exact ⟨1, runSteps_succ 0 (step_read rfl hrest.2.2)⟩
  atRest := hrest
  params := rfl
  reads := ⟨_, rfl, rfl⟩

/-- A command issued and polled: the registers are the command's result (R241). -/
theorem hostRun_issue {i : Instr} (lat : Nat) (hwf : i.wf = true) (hrest : AtRest s)
    (hexec : exec i (accept (encode i) s) = .next u) :
    ∃ t, HostRun [(.issue (.instr i), lat)] s t [] ∧ t.toEngine = { u.toEngine with busy := false } := by
  have hatomic : atomicCommand (encode i) s = .next (finish u) :=
    complete_next ((execWord_instr _ (decode_encode hwf)).trans hexec)
  have hovr : u.ovr = false := (exec_ovr hexec).trans hrest.2.1
  have hengine : (finish u).toEngine = { u.toEngine with busy := false } := by rw [finish_of_not_ovr hovr]
  have hreset : (finish u).resetLine = false := (complete_resetLine hatomic).trans hrest.2.2
  obtain ⟨-, hparams, -, -⟩ := complete_keeps hatomic
  refine ⟨{ finish u with seen := s.seen ++ List.replicate lat (statusRead { s.toEngine with busy := true }) ++
    [statusRead (finish u).toEngine] }, ⟨fun rest => ⟨lat + 3, ?_⟩, ⟨finish_busy u, finish_ovr u, hreset⟩, hparams,
    ⟨_, List.append_assoc _ _ _, collected_poll _ _ _⟩⟩, hengine⟩
  rw [programTurns_singleton]
  exact runSteps_issue (u := finish u) (rest := rest) (encode i) lat hrest hatomic (finish_busy u)

/-! ### Programs whose latencies are not said -/

/-- With any latencies, the lines lead from `s` to a host at rest that meets `post` with the output it has
collected. -/
def Achieves (lines : List Line) (s : State) (post : State → List Byte → Prop) : Prop :=
  ∀ program : List (Line × Nat), program.map Prod.fst = lines → ∃ t out, HostRun program s t out ∧ post t out

variable {post : State → List Byte → Prop}

theorem achieves_nil (hrest : AtRest s) (hpost : post s []) : Achieves [] s post := by
  intro program hprogram
  obtain rfl := List.map_eq_nil_iff.mp hprogram
  exact ⟨s, [], hostRun_nil hrest, hpost⟩

theorem achieves_mono {post' : State → List Byte → Prop} (h : Achieves lines s post)
    (himp : ∀ t out, post t out → post' t out) : Achieves lines s post' := by
  intro program hprogram
  obtain ⟨t, out, hrun, hpost⟩ := h program hprogram
  exact ⟨t, out, hrun, himp t out hpost⟩

/-- A line first, then the others from where it leads. -/
theorem achieves_cons {line : Line} (hline : ∀ lat, ∃ u, HostRun [(line, lat)] s u out ∧
      Achieves lines u fun t out' => post t (out ++ out')) : Achieves (line :: lines) s post := by
  intro program hprogram
  obtain ⟨⟨_, lat⟩, others, rfl, rfl, hothers⟩ := List.map_eq_cons_iff.mp hprogram
  obtain ⟨u, hrun, hnext⟩ := hline lat
  obtain ⟨t, out', hrun', hpost⟩ := hnext others hothers
  exact ⟨t, _, hrun.append hrun', hpost⟩

theorem achieves_ld {bytes : List Byte} (hrest : AtRest s) (hnext : Achieves lines { s with din := pack bytes } post) :
    Achieves (.ld bytes :: lines) s post :=
  achieves_cons fun _ => ⟨_, hostRun_dinWrite rfl hrest, hnext⟩

theorem achieves_wrDin {v : BitVec 64} (hrest : AtRest s) (hnext : Achieves lines { s with din := v } post) :
    Achieves (.wr .din v :: lines) s post :=
  achieves_cons fun _ => ⟨_, hostRun_dinWrite rfl hrest, hnext⟩

theorem achieves_rdDout (hrest : AtRest s)
    (hnext : Achieves lines (observe 3#5 s) fun t out => post t (unpack s.dout ++ out)) :
    Achieves (.rd .dout :: lines) s post := by
  have hread : ∀ lat, HostRun [(.rd .dout, lat)] s (observe 3#5 s) (unpack s.dout) := fun _ =>
    collected_dout s.dout ▸ hostRun_read rfl hrest
  exact achieves_cons fun lat => ⟨_, hread lat, hnext⟩

theorem achieves_issue {i : Instr} (hwf : i.wf = true) (hrest : AtRest s)
    (hexec : exec i (accept (encode i) s) = .next u)
    (hnext : ∀ t, AtRest t → t.params = s.params → t.toEngine = { u.toEngine with busy := false } →
      Achieves lines t post) : Achieves (.issue (.instr i) :: lines) s post := by
  refine achieves_cons (out := []) fun lat => ?_
  obtain ⟨t, hrun, hengine⟩ := hostRun_issue lat hwf hrest hexec
  exact ⟨t, hrun, hnext t hrun.atRest hrun.params hengine⟩

/-- A program that ends in a STATUS read: its run ends, and the last STATUS the host has read is the final one. -/
theorem runEnds_of_achieves {program : List (Line × Nat)} (h : Achieves lines s post)
    (hprogram : program.map Prod.fst = lines ++ [.rd .status]) :
    ∃ t u reads, RunEnds program s t ∧ AtRest t ∧ t.toEngine = u.toEngine ∧ t.seen = s.seen ++ reads ∧
      post u (collected reads) ∧ lastStatus reads = some (statusWord u.toEngine) := by
  obtain ⟨body, last, rfl, hbody, hlast⟩ := List.map_eq_append_iff.mp hprogram
  obtain ⟨⟨_, lat⟩, _, rfl, rfl, hnil⟩ := List.map_eq_cons_iff.mp hlast
  obtain rfl := List.map_eq_nil_iff.mp hnil
  obtain ⟨u, out, hrun, hpost⟩ := h body hbody
  have hread := hostRun_read (line := .rd .status) (lat := lat) rfl hrun.atRest
  obtain ⟨n, hsteps⟩ := (hrun.append hread).steps []
  obtain ⟨reads, hseen, rfl⟩ := hrun.reads
  have hstatus : collected [statusRead u.toEngine] = [] := collected_poll 0 u.toEngine u.toEngine
  rw [List.append_nil] at hsteps
  refine ⟨_, u, reads ++ [statusRead u.toEngine], ⟨n, hsteps, rfl, hrun.atRest.1⟩, hrun.atRest, rfl, ?seen, ?output,
    ?status⟩
  case seen =>
    rw [← List.append_assoc, ← hseen]
    rfl
  case output => rwa [collected_append, hstatus, List.append_nil]
  case status =>
    rw [← List.append_nil (reads ++ _)]
    exact lastStatus_of_last reads _ (by simp)

/-! ### EncDriver (R153) -/

/-- What the lines for one slice leave of an open encrypt session: its block is the feedback value, and a short slice
closes the session (R150). -/
structure SliceEncrypted (s : State) (x : List Byte) (t : State) : Prop where
  atRest : AtRest t
  params : t.params = s.params
  fb : t.fb = pack (padSlice x) ^^^ s.fb
  err : t.err = s.err
  mode : t.mode = if x.length < 8 then .encClosed else .enc
  stgcnt : t.stgcnt = s.stgcnt + 3#32

/-- The lines for one slice put its block out. -/
theorem achieves_encSlice {x : List Byte} (hrest : AtRest s) (hok : s.params.tables.ok = true) (hmode : s.mode = .enc)
    (hx : 1 ≤ x.length ∧ x.length ≤ 8)
    (hnext : ∀ t, SliceEncrypted s x t → Achieves lines t fun t' out => post t' (unpack t.fb ++ out)) :
    Achieves (encSliceLines x ++ lines) s post := by
  have hblock : cascadeEnc s.params.tables (padReg (pack x) x.length ^^^ s.fb) = pack (padSlice x) ^^^ s.fb := by
    rw [cascadeEnc_eq_self hok, padReg_pack_slice hx.2]
  refine achieves_ld hrest (achieves_issue (blockLenOk_iff.mpr hx) hrest
    (exec_encBlock_of_enc x.length hmode) fun t htrest htparams htengine => achieves_rdDout htrest ?_)
  have hdout : t.dout = t.fb := by rw [htengine]
  rw [hdout]
  refine hnext _ ⟨htrest, htparams, ?_, ?_, ?_, ?_⟩
  · rw [← hblock, observe_fb, htengine]
    rfl
  · rw [observe_err, htengine]
    rfl
  · rw [observe_mode, htengine]
  · rw [observe_stgcnt, htengine]
    rfl

/-- What the lines for the slices of `x` lead to from an open encrypt session: Encrypt's loop on them (R143, R155). -/
structure EncryptedFrom (s : State) (x : List Byte) (t : State) (out : List Byte) : Prop where
  output : encryptSlices s.params.tables (unpack s.fb) (slices x) = .ok out
  fb : unpack t.fb = (unpack s.fb ++ out).drop out.length
  err : t.err = s.err
  mode : t.mode = if x = [] then s.mode else if x.length % 8 = 0 then .enc else .encClosed
  stgcnt : t.stgcnt = s.stgcnt + BitVec.ofNat 32 (3 * ((x.length + 7) / 8))

theorem encryptedFrom_nil (s : State) : EncryptedFrom s [] s [] where
  output := rfl
  fb := rfl
  err := rfl
  mode := rfl
  stgcnt := (BitVec.add_zero _).symm

/-- Three stages for a block, and then three for each of the others (10_state.md R30). -/
theorem stages_succ (c : BitVec 32) (n : Nat) :
    c + 3#32 + BitVec.ofNat 32 (3 * n) = c + BitVec.ofNat 32 (3 * (n + 1)) := by
  rw [BitVec.add_assoc, Nat.mul_succ, Nat.add_comm (3 * n), BitVec.ofNat_add]

/-- A slice, then the rest of the message from the state that the slice leaves. -/
theorem encryptedFrom_slice {x : List Byte} (hok : s.params.tables.ok = true) (hne : x ≠ [])
    (hslice : SliceEncrypted s (x.take 8) u) (hothers : EncryptedFrom u (x.drop 8) t out) :
    EncryptedFrom s x t (unpack u.fb ++ out) := by
  have hpos : 0 < x.length := List.length_pos_iff.mpr hne
  refine ⟨?output, ?fb, hothers.err.trans hslice.err, ?mode, ?stgcnt⟩
  case output =>
    rw [slices_of_ne_nil hne, encryptSlices_cons hok s.fb (by simp), ← hslice.fb, ← hslice.params, hothers.output]
    rfl
  case fb =>
    have hlen : (unpack u.fb ++ out).length = (unpack s.fb).length + out.length := by simp
    rw [hothers.fb, hlen, ← List.drop_drop, List.drop_left]
  case mode =>
    have hmode := hothers.mode
    rw [hslice.mode] at hmode
    simp only [List.drop_eq_nil_iff, List.length_take, List.length_drop] at hmode
    rw [hmode, if_neg hne]
    rcases lt_trichotomy x.length 8 with h8 | h8 | h8
    · rw [if_pos (by omega), if_pos (by omega), if_neg (by omega)]
    · rw [if_pos (by omega), if_neg (by omega), if_pos (by omega)]
    · have hmod : (x.length - 8) % 8 = x.length % 8 := by omega
      rw [if_neg (by omega), hmod]
  case stgcnt =>
    have hcount : (x.length + 7) / 8 = ((x.drop 8).length + 7) / 8 + 1 := by
      rw [List.length_drop]
      omega
    rw [hothers.stgcnt, hslice.stgcnt, stages_succ, hcount]

/-- The lines for all the slices of a message. -/
theorem achieves_encSlices (x : List Byte) (s : State) (hrest : AtRest s) (hok : s.params.tables.ok = true)
    (hmode : s.mode = .enc) : Achieves ((slices x).flatMap encSliceLines) s (EncryptedFrom s x) := by
  induction x using slices_induction generalizing s with
  | nil => exact achieves_nil hrest (encryptedFrom_nil s)
  | slice x hne ih =>
    have hpos : 0 < x.length := List.length_pos_iff.mpr hne
    rw [slices_of_ne_nil hne, List.flatMap_cons]
    refine achieves_encSlice hrest hok hmode (by rw [List.length_take]; omega) fun u hslice =>
      achieves_mono ?others fun t out => encryptedFrom_slice hok hne hslice
    case others =>
      by_cases h8 : x.length < 8
      · rw [List.drop_eq_nil_of_le (Nat.le_of_lt h8)]
        exact achieves_nil hslice.atRest (encryptedFrom_nil u)
      · have humode : u.mode = .enc := hslice.mode.trans (if_neg (by simpa using h8))
        exact ih u hslice.atRest (hslice.params ▸ hok) humode

/-- The IV of EncDriver (R149, R153). -/
def driverIv (src : IvSrc) (v : BitVec 64) (s : State) : BitVec 64 :=
  match src with
  | .din => v
  | .rng => Config.draw64 s.draws

/-- What EncDriver's first lines lead to: the IV put out, the session open. -/
structure EncOpened (s : State) (iv : BitVec 64) (t : State) : Prop where
  atRest : AtRest t
  params : t.params = s.params
  fb : t.fb = iv
  err : t.err = errNone
  mode : t.mode = .enc
  stgcnt : t.stgcnt = s.stgcnt

/-- ENC_START issued, and its output read. -/
theorem achieves_encStart {src : IvSrc} {iv : BitVec 64} {s' : State} (hrest : AtRest s)
    (hexec : exec (.encStart src) (accept (encode (.encStart src)) s) = .next (openEncrypt iv s'))
    (hcount : s'.stgcnt = s.stgcnt)
    (hnext : ∀ t, EncOpened s iv t → Achieves lines t fun t' out => post t' (unpack iv ++ out)) :
    Achieves (.issue (.instr (.encStart src)) :: .rd .dout :: lines) s post := by
  refine achieves_issue rfl hrest hexec fun t htrest htparams htengine => achieves_rdDout htrest ?_
  have hdout : t.dout = iv := by rw [htengine, openEncrypt_dout]
  rw [hdout]
  refine hnext _ ⟨htrest, htparams, ?_, ?_, ?_, ?_⟩
  · rw [observe_fb, htengine, openEncrypt_fb]
  · rw [observe_err, htengine, openEncrypt_err]
  · rw [observe_mode, htengine, openEncrypt_mode]
  · rw [observe_stgcnt, htengine, openEncrypt_stgcnt, hcount]

/-- What EncDriver's lines lead to before the last STATUS read. -/
def DriverEncrypted (s : State) (iv : BitVec 64) (p : List Byte) (t : State) (out : List Byte) : Prop :=
  ∃ u stream, EncOpened s iv u ∧ EncryptedFrom u p t stream ∧ out = unpack iv ++ stream

/-- With the session open, the slices. -/
theorem achieves_encSlices_of_opened {iv : BitVec 64} (p : List Byte) (hok : s.params.tables.ok = true)
    (hu : EncOpened s iv u) : Achieves ((slices p).flatMap encSliceLines) u
      fun t out => DriverEncrypted s iv p t (unpack iv ++ out) :=
  achieves_mono (achieves_encSlices p u hu.atRest (hu.params ▸ hok) hu.mode) fun _ out h => ⟨u, out, hu, h, rfl⟩

/-- EncDriver is these lines and a last STATUS read (R153). -/
theorem achieves_encDriver (src : IvSrc) (v : BitVec 64) (p : List Byte) (hrest : AtRest s)
    (hok : s.params.tables.ok = true) (hready : src = .rng → s.params.rngReady = true) :
    ∃ lines, encDriver src v p = lines ++ [.rd .status] ∧
      Achieves lines s (DriverEncrypted s (driverIv src v s) p) := by
  cases src with
  | din =>
    refine ⟨_, rfl, achieves_wrDin hrest (achieves_encStart (s := { s with din := v }) hrest (exec_encStart_din _) rfl
      fun t ht => achieves_encSlices_of_opened p hok ?_)⟩
    exact ⟨ht.atRest, ht.params, ht.fb, ht.err, ht.mode, ht.stgcnt⟩
  | rng =>
    exact ⟨_, rfl, achieves_encStart hrest (exec_encStart_rng (hready rfl)) rfl
      fun t ht => achieves_encSlices_of_opened p hok ht⟩

/-- What the lines have put out is Encrypt of the message (R143). -/
theorem encrypt_of_driverEncrypted {iv : BitVec 64} {p : List Byte} (h : DriverEncrypted s iv p t out) :
    encrypt s.params.tables p (unpack iv) = .ok out := by
  obtain ⟨u, stream, hopened, hslices, rfl⟩ := h
  have houtput := hslices.output
  rw [hopened.params, hopened.fb] at houtput
  rw [encrypt, houtput]
  rfl

/-- And the registers are those of R155 (b) and (d). -/
theorem registers_of_driverEncrypted {iv : BitVec 64} {p : List Byte} (h : DriverEncrypted s iv p t out) :
    t.err = errNone ∧ unpack t.fb = out.drop (out.length - 8) ∧
    t.mode = (if p.length % 8 = 0 then .enc else .encClosed) ∧
    t.stgcnt = s.stgcnt + BitVec.ofNat 32 (3 * ((p.length + 7) / 8)) := by
  obtain ⟨u, stream, hopened, hslices, rfl⟩ := h
  refine ⟨hslices.err.trans hopened.err, ?fb, ?mode, by rw [hslices.stgcnt, hopened.stgcnt]⟩
  case fb =>
    rw [hslices.fb, hopened.fb, List.length_append, unpack_length, Nat.add_sub_cancel_left]
  case mode =>
    rw [hslices.mode, hopened.mode]
    by_cases hp : p = []
    · subst hp
      rfl
    · rw [if_neg hp]

/-- Settles O54: each line's rule, along the lines of the driver and its slices, gives Encrypt's loop. -/
theorem encDriverCollectsEncrypt : Obligations.EncDriverCollectsEncrypt := by
  unfold Obligations.EncDriverCollectsEncrypt
  intro s src v p lats hrest hok hready hlats
  obtain ⟨lines, hlines, hachieves⟩ := achieves_encDriver src v p hrest hok hready
  have hprogram : ((encDriver src v p).zip lats).map Prod.fst = lines ++ [.rd .status] :=
    (List.map_fst_zip (Nat.le_of_eq hlats.symm)).trans hlines
  obtain ⟨t, u, reads, hends, htrest, hengine, hseen, hpost, -⟩ := runEnds_of_achieves hachieves hprogram
  have henc := encrypt_of_driverEncrypted hpost
  refine ⟨t, reads, hends, htrest, hseen, ?_, ?_⟩
  · cases src <;> exact henc
  · rw [hengine]
    exact registers_of_driverEncrypted hpost

/-! ### DecDriver (R154) -/

/-- The host's registers and output report `r`: the bytes it collected, or the kind of the error in ERR. -/
def Reports (t : State) (out : List Byte) : MsgResult → Prop
  | .ok bytes => t.err = errNone ∧ out = bytes
  | .error kind => sourceKind t.err = some kind

/-- The last STATUS read and the collected bytes give the report (R154, R208). -/
theorem driverResult_of_reports {reads : List ReadValue} {r : MsgResult} (h : Reports t (collected reads) r)
    (hstatus : lastStatus reads = some (statusWord t.toEngine)) : driverResult reads = some r := by
  have hreport := report_of_lastStatus hstatus
  have herr : statusErr (statusWord t.toEngine) = t.err := statusWord_err _
  rw [herr] at hreport
  cases r with
  | ok bytes =>
    obtain ⟨hnone, rfl⟩ := h
    rw [if_pos hnone] at hreport
    rw [driverResult, hreport]
  | error kind =>
    have hkind : sourceKind t.err = some kind := h
    have hne : t.err ≠ errNone := by
      rintro hnone
      rw [hnone] at hkind
      cases hkind
    rw [if_neg hne] at hreport
    rw [driverResult, hreport]
    simp only [hkind, Option.map_some]

/-- What the lines for the slices of `x` lead to from an open decrypt session: the report of Decrypt's loop on them, and
three stages for each whole block (R144, R155). -/
structure DecryptedFrom (s : State) (x : List Byte) (t : State) (out : List Byte) : Prop where
  reports : Reports t out (decryptSlices s.params.tables (unpack s.fb) (slices x))
  stgcnt : t.stgcnt = s.stgcnt + BitVec.ofNat 32 (3 * (x.length / 8))

/-- What the lines for one whole slice leave of an open decrypt session (R152). -/
structure SliceDecrypted (s : State) (c : List Byte) (t : State) : Prop where
  atRest : AtRest t
  params : t.params = s.params
  fb : t.fb = pack c
  err : t.err = s.err
  mode : t.mode = s.mode
  stgcnt : t.stgcnt = s.stgcnt + 3#32

/-- The lines for a whole slice put the plaintext block out. -/
theorem achieves_decSlice {c : List Byte} (hrest : AtRest s) (hmode : s.mode = .dec) (hc : c.length = 8)
    (hnext : ∀ t, SliceDecrypted s c t → Achieves lines t fun t' out =>
      post t' (unpack (cascadeDec s.params.tables (pack c) ^^^ s.fb) ++ out)) :
    Achieves (decSliceLines c ++ lines) s post := by
  have hlines : decSliceLines c = [.ld c, .issue (.instr (.decBlock c.length)), .rd .dout] := by
    rw [decSliceLines, if_pos hc]
    rfl
  have hwf : (Instr.decBlock c.length).wf = true := blockLenOk_iff.mpr (by omega)
  rw [hlines]
  refine achieves_ld hrest (achieves_issue hwf hrest (exec_decBlock_of_dec_of_ge hmode (Nat.le_of_eq hc.symm))
    fun t htrest htparams htengine => achieves_rdDout htrest ?_)
  have hdout : t.dout = cascadeDec s.params.tables (pack c) ^^^ s.fb := by
    rw [htengine]
    rfl
  rw [hdout]
  refine hnext _ ⟨htrest, htparams, ?_, ?_, ?_, ?_⟩
  · rw [observe_fb, htengine]
    rfl
  · rw [observe_err, htengine]
    rfl
  · rw [observe_mode, htengine]
    rfl
  · rw [observe_stgcnt, htengine]
    rfl

/-- The lines for a short slice record LENGTH_MISMATCH and put nothing out (R152). -/
theorem achieves_decSlice_short {c : List Byte} (hrest : AtRest s) (hmode : s.mode = .dec) (herr : s.err = errNone)
    (hc : 1 ≤ c.length ∧ c.length < 8) : Achieves (decSliceLines c) s
      fun t _ => t.err = ErrKind.lengthMismatch.code ∧ t.stgcnt = s.stgcnt := by
  have hlines : decSliceLines c = [.ld c, .issue (.instr (.decBlock c.length))] := by
    rw [decSliceLines, if_neg (by omega)]
    rfl
  have hwf : (Instr.decBlock c.length).wf = true := blockLenOk_iff.mpr (by omega)
  rw [hlines]
  refine achieves_ld hrest (achieves_issue hwf hrest (exec_decBlock_of_dec_of_lt hmode hc.2)
    fun t htrest _ htengine => achieves_nil htrest ⟨?_, ?_⟩)
  · rw [htengine]
    exact if_pos herr
  · rw [htengine]
    rfl

theorem decryptedFrom_nil (herr : s.err = errNone) : DecryptedFrom s [] s [] where
  reports := ⟨herr, rfl⟩
  stgcnt := (BitVec.add_zero _).symm

/-- A short last slice: the loop fails with LengthMismatch, having put nothing out for it (R144). -/
theorem decryptedFrom_short {x : List Byte} (hne : x ≠ []) (h8 : x.length < 8)
    (herr : t.err = ErrKind.lengthMismatch.code) (hcount : t.stgcnt = s.stgcnt) : DecryptedFrom s x t out where
  reports := by
    rw [slices_of_ne_nil hne, decryptSlices, if_pos (by simp [h8]), Reports, herr]
    rfl
  stgcnt := by
    rw [hcount, Nat.div_eq_of_lt h8]
    exact (BitVec.add_zero _).symm

/-- A block put out in front of a reported output is in front of the report. -/
theorem Reports.block {r : MsgResult} (block : List Byte) (h : Reports t out r) :
    Reports t (block ++ out) (r.map (block ++ ·)) := by
  cases r with
  | ok bytes => exact ⟨h.1, congrArg (block ++ ·) h.2⟩
  | error kind => exact h

/-- A whole slice, then the rest of the body from the state that the slice leaves. -/
theorem decryptedFrom_slice {x : List Byte} (h8 : 8 ≤ x.length) (hslice : SliceDecrypted s (x.take 8) u)
    (hothers : DecryptedFrom u (x.drop 8) t out) :
    DecryptedFrom s x t (unpack (cascadeDec s.params.tables (pack (x.take 8)) ^^^ s.fb) ++ out) where
  reports := by
    have hne : x ≠ [] := List.ne_nil_of_length_pos (by omega)
    have hfirst : (x.take 8).length = 8 := by simp [h8]
    have hreports := hothers.reports
    rw [hslice.params, hslice.fb, unpack_pack hfirst] at hreports
    rw [slices_of_ne_nil hne, decryptSlices_cons _ (unpack_length s.fb) hfirst, pack_unpack]
    exact hreports.block _
  stgcnt := by
    have hcount : x.length / 8 = (x.drop 8).length / 8 + 1 := by
      rw [List.length_drop]
      omega
    rw [hothers.stgcnt, hslice.stgcnt, stages_succ, hcount]

/-- The lines for all the slices of a stream's body. -/
theorem achieves_decSlices (x : List Byte) (s : State) (hrest : AtRest s) (hmode : s.mode = .dec)
    (herr : s.err = errNone) : Achieves ((slices x).flatMap decSliceLines) s (DecryptedFrom s x) := by
  induction x using slices_induction generalizing s with
  | nil => exact achieves_nil hrest (decryptedFrom_nil herr)
  | slice x hne ih =>
    have hpos : 0 < x.length := List.length_pos_iff.mpr hne
    rw [slices_of_ne_nil hne, List.flatMap_cons]
    by_cases h8 : x.length < 8
    · rw [List.drop_eq_nil_of_le (Nat.le_of_lt h8), slices_nil, List.flatMap_nil, List.append_nil]
      exact achieves_mono (achieves_decSlice_short hrest hmode herr (by rw [List.length_take]; omega))
        fun t out h => decryptedFrom_short hne h8 h.1 h.2
    · exact achieves_decSlice hrest hmode (by rw [List.length_take]; omega) fun u hslice =>
        achieves_mono (ih u hslice.atRest (hslice.mode.trans hmode) (hslice.err.trans herr))
          fun t out => decryptedFrom_slice (Nat.le_of_not_lt h8) hslice

/-- What DecDriver's lines lead to before the last STATUS read. -/
structure DriverDecrypted (s : State) (x : List Byte) (t : State) (out : List Byte) : Prop where
  reports : Reports t out (decrypt s.params.tables x)
  stgcnt : t.stgcnt = s.stgcnt + BitVec.ofNat 32 (3 * ((x.length - 8) / 8))

/-- DEC_START on a stream shorter than the IV records TRUNCATED_INPUT, whatever was loaded (R151). -/
theorem achieves_decStart_short {x : List Byte} (hrest : AtRest u) (hcount : u.stgcnt = s.stgcnt) (h8 : x.length < 8) :
    Achieves [.issue (.instr (.decStart x.length))] u (DriverDecrypted s x) := by
  have hwf : (Instr.decStart x.length).wf = true := ivLenOk_iff.mpr (Nat.le_of_lt h8)
  refine achieves_issue hwf hrest (exec_decStart_of_lt h8) fun t htrest _ htengine => achieves_nil htrest ⟨?_, ?_⟩
  · rw [decrypt_short _ h8, Reports, htengine]
    rfl
  · have hnone : (x.length - 8) / 8 = 0 := by omega
    rw [hnone, htengine]
    exact hcount.trans (BitVec.add_zero _).symm

/-- DecDriver's lines on a stream shorter than the IV; an empty one loads nothing. -/
theorem achieves_decDriver_short {x : List Byte} (hrest : AtRest s) (h8 : x.length < 8) :
    ∃ lines, decDriver x = lines ++ [.rd .status] ∧ Achieves lines s (DriverDecrypted s x) := by
  refine ⟨(if 0 < x.length then [.ld x] else []) ++ [.issue (.instr (.decStart x.length))], ?lines, ?run⟩
  case lines =>
    have hk : min x.length 8 = x.length := by omega
    rw [decDriver]
    simp only [hk, List.take_length, if_neg (Nat.ne_of_lt h8), List.append_nil]
  case run =>
    split
    · exact achieves_ld hrest (achieves_decStart_short hrest rfl h8)
    · exact achieves_decStart_short hrest rfl h8

/-- DecDriver's lines on a stream with an IV: the session opens, and the body's slices follow. -/
theorem achieves_decDriver_whole {x : List Byte} (hrest : AtRest s) (h8 : 8 ≤ x.length) :
    ∃ lines, decDriver x = lines ++ [.rd .status] ∧ Achieves lines s (DriverDecrypted s x) := by
  refine ⟨.ld (x.take 8) :: .issue (.instr (.decStart 8)) :: (slices (x.drop 8)).flatMap decSliceLines, ?lines, ?run⟩
  case lines =>
    have hk : min x.length 8 = 8 := by omega
    rw [decDriver]
    simp only [hk]
    rfl
  case run =>
    refine achieves_ld hrest (achieves_issue rfl hrest (exec_decStart_of_ge le_rfl)
      fun u hurest huparams huengine => achieves_mono (achieves_decSlices (x.drop 8) u hurest ?mode ?err)
      fun t out h => ⟨?reports, ?stgcnt⟩)
    case mode => rw [huengine]
    case err => rw [huengine]; rfl
    case reports =>
      have hfb : u.fb = pack (x.take 8) := by
        rw [huengine]
        rfl
      have hreports := h.reports
      rw [huparams, hfb, unpack_pack (by simp [h8])] at hreports
      rwa [decrypt, if_neg (by omega)]
    case stgcnt =>
      rw [h.stgcnt, List.length_drop, huengine]
      rfl

/-- Settles O55: each line's rule, along the lines of the driver and its slices, gives Decrypt's loop, or the error it
ends in. -/
theorem decDriverReportsDecrypt : Obligations.DecDriverReportsDecrypt := by
  unfold Obligations.DecDriverReportsDecrypt
  intro s x lats hrest _ hlats
  obtain ⟨lines, hlines, hachieves⟩ : ∃ lines, decDriver x = lines ++ [.rd .status] ∧
      Achieves lines s (DriverDecrypted s x) :=
    (Nat.lt_or_ge x.length 8).elim (achieves_decDriver_short hrest) (achieves_decDriver_whole hrest)
  have hprogram : ((decDriver x).zip lats).map Prod.fst = lines ++ [.rd .status] :=
    (List.map_fst_zip (Nat.le_of_eq hlats.symm)).trans hlines
  obtain ⟨t, u, reads, hends, htrest, hengine, hseen, hpost, hstatus⟩ := runEnds_of_achieves hachieves hprogram
  refine ⟨t, reads, hends, htrest, hseen, driverResult_of_reports hpost.reports hstatus, ?stgcnt⟩
  case stgcnt =>
    rw [hengine]
    exact hpost.stgcnt

end Sys2Proof.Machine
end
